-- ==== Sys2Proof/Word.lean ====
section
/-! DEFINITION. The words of the vox ADPCM codec engine: the 32-bit register and command word, the byte of a stream,
the 4-bit code. -/

namespace Sys2Proof

/-- A register value or a command word (R33, R46). -/
abbrev Word := BitVec 32

/-- One byte of a stream (R35, R36). -/
abbrev Byte := BitVec 8

/-- A 4-bit ADPCM code: bit 3 the sign S, bits 2:0 the magnitude level M (R53). -/
abbrev Code := BitVec 4

end Sys2Proof
end

