-- ==== Sys2Proof/Syntax.lean ====
section
/-! DEFINITION. The commands of VOXCMD v1: one constructor per row of spec/opcode_table.json (R47). -/

namespace Sys2Proof

/-- The conversion direction, ENCODE = 0, DECODE = 1 (R18). -/
inductive Dir
  | encode
  | decode
  deriving DecidableEq, Repr

/-- A command, with the fields of its word that R48 leaves free. -/
inductive Instr
  /-- OPEN (R90): DIR and the requested width WID. -/
  | openStream (dir : Dir) (wid : BitVec 8)
  /-- INIT (R69). -/
  | init
  /-- ENC (R70): IMM. -/
  | enc (imm : BitVec 16)
  /-- DEC (R71): the code IMM[3:0]. -/
  | dec (code : Code)
  /-- NIN (R80): IMM. -/
  | nin (imm : BitVec 16)
  /-- NOUT (R81): IMM. -/
  | nout (imm : BitVec 16)
  /-- RUN (R93). -/
  | run
  deriving DecidableEq, Repr

end Sys2Proof
end

