-- ==== Sys2Proof/WellFormed.lean ====
section
/-! DEFINITION. The value constraints of a command that do not depend on the block's state (R49): what an assembler checks
(R58). The constraint of NIN depends on CFG_WIDTH and is checked when the command runs. -/

namespace Sys2Proof

/-- IMM, read as sext_16, lies in −2048..2047 (R49). -/
def isSample12 (imm : BitVec 16) : Bool := decide (-2048 ≤ imm.toInt) && decide (imm.toInt ≤ 2047)

/-- Every constraint of R49 that the command's word alone decides. -/
def Instr.wellFormed : Instr → Bool
  | .openStream _ _ => true
  | .init => true
  | .enc imm => isSample12 imm
  | .dec _ => true
  | .nin _ => true
  | .nout imm => isSample12 imm
  | .run => true

end Sys2Proof
end

