-- ==== Sys2Proof/Decode.lean ====
section
/-! DEFINITION. The decoder of a command word (R46, R47, R48), total on all 2^32 words (R52) and rejecting by name, and the
encoder after it. -/

namespace Sys2Proof

/-- The reasons of R100, in the order in which they are checked (R105). -/
inductive RefuseReason
  | busy
  | badOp
  | reservedBits
  | operandRange
  | runNotReady
  deriving DecidableEq, Repr

/-- The model-only reason code of R100. -/
def RefuseReason.code : RefuseReason → Nat
  | .busy => 1
  | .badOp => 2
  | .reservedBits => 3
  | .operandRange => 4
  | .runNotReady => 5

/-- OP = w[31:28] (R46). -/
def opField (w : Word) : BitVec 4 := w.extractLsb' 28 4

/-- DIR = w[27] (R46). -/
def dirField (w : Word) : Dir := if w.getLsbD 27 then .decode else .encode

/-- WID = w[23:16] (R46). -/
def widField (w : Word) : BitVec 8 := w.extractLsb' 16 8

/-- IMM = w[15:0] (R46). -/
def immField (w : Word) : BitVec 16 := w.extractLsb' 0 16

/-- One row of R48: the word is the command if the bits under the mask match, and has a nonzero required-zero field if not. -/
def selectRow (w mask pattern : Word) (i : Instr) : Except RefuseReason Instr :=
  if w &&& mask = pattern then .ok i else .error .reservedBits

/-- The command a word selects: OP first (BAD_OP), then the required-zero fields (RESERVED_BITS) (R47, R48, R105). -/
def decode (w : Word) : Except RefuseReason Instr :=
  match (opField w).toNat with
  | 1 => selectRow w 0xF700FFFF 0x10000000 (.openStream (dirField w) (widField w))
  | 2 => selectRow w 0xFFFFFFFF 0x20000000 .init
  | 3 => selectRow w 0xFFFF0000 0x30000000 (.enc (immField w))
  | 4 => selectRow w 0xFFFFFFF0 0x40000000 (.dec (w.extractLsb' 0 4))
  | 5 => selectRow w 0xFFFF0000 0x50000000 (.nin (immField w))
  | 6 => selectRow w 0xFFFF0000 0x60000000 (.nout (immField w))
  | 7 => selectRow w 0xFFFFFFFF 0x70000000 .run
  | _ => .error .badOp

/-- The bit DIR of a direction (R18). -/
def Dir.bit : Dir → BitVec 1
  | .encode => 0
  | .decode => 1

/-- A command word from its fields, high to low: OP, DIR, reserved, WID, IMM (R46). -/
def packWord (op : BitVec 4) (dir : BitVec 1) (wid : BitVec 8) (imm : BitVec 16) : Word :=
  op ++ dir ++ (0 : BitVec 3) ++ wid ++ imm

/-- The word of a command (R46, R47). -/
def encode : Instr → Word
  | .openStream dir wid => packWord 1 dir.bit wid 0
  | .init => packWord 2 0 0 0
  | .enc imm => packWord 3 0 0 imm
  | .dec code => packWord 4 0 0 (code.setWidth 16)
  | .nin imm => packWord 5 0 0 imm
  | .nout imm => packWord 6 0 0 imm
  | .run => packWord 7 0 0 0

/-- The command read from a word whose bits, numbered as the opcode table numbers them, are those of `w` below `nbits`. A
command is one 32-bit word moved whole (R34, R38), so there is no layout in bytes to choose (log 21). -/
def decodeTableWord (nbits w : Nat) : Option Instr :=
  (decode (BitVec.ofNat 32 (w % 2 ^ nbits))).toOption

end Sys2Proof
end

