-- ==== Sys2Proof/Config.lean ====
section
/-! DEFINITION. What an instance of the block fixes (R6, R31) and the values the spec leaves open (93_implementation_defined.md,
treatment "any value"): the first as plain data, the second as opaque constants. -/

namespace Sys2Proof

/-- The external sample width, 8 or 16 bits (R17). -/
inductive Width
  | w8
  | w16
  deriving DecidableEq, Repr

/-- The order of a 16-bit sample's two bytes in a stream, SAMPLE16_ORDER (R37). -/
inductive ByteOrder
  | little
  | big
  deriving DecidableEq, Repr

/-- The meaning of "÷" on negative operands: the spec's truncation toward zero (R9), or the other reading of I3, floor
division. -/
inductive DivMode
  | truncate
  | shift
  deriving DecidableEq, Repr

/-- What the padding's "zero-valued sample" is: the 12-bit working value 0 (R86), or the other reading of I5, the external
value 0 put through the normalizer. -/
inductive PadDomain
  | working
  | external
  deriving DecidableEq, Repr

/-- The parameter QUANT, (|delta|, step size) to a 3-bit level (R6, I2; log 12). -/
inductive Quantizer
  /-- Successive approximation, VOX-DEFAULT's (R62). -/
  | successive
  /-- A concrete quantizer: for each step size its breakpoints (a, m), in rising order, m the level from |delta| = a on. -/
  | table (rows : List (Nat × List (Nat × BitVec 3)))
  /-- A quantizer known only by a number. -/
  | other (k : Nat)
  deriving DecidableEq, Repr

/-- The parameter RECON, (level, step size) to |delta| (R6, I2; log 12). -/
inductive Reconstruction
  /-- The bit-sum form, VOX-DEFAULT's (R63). -/
  | bitSum
  /-- A concrete reconstruction: for each step size its value at level 0, then what each further level adds. So every function that I2
  allows, non-negative and non-decreasing in the level, is such a row, and no other is. -/
  | table (rows : List (Nat × Vector Nat 8))
  /-- A reconstruction known only by a number. -/
  | other (k : Nat)
  deriving DecidableEq, Repr

/-- The parameters of an instance (R6), with the switches that I3, I4 and I5 name and the base address of I19.
TABLE_SIZE is the length of `stepTable`. PRED_MIN and PRED_MAX are no parameters: R7 fixes them. -/
structure Params where
  /-- STEP_TABLE (R21) -/
  stepTable : List Nat
  /-- ADAPT_TABLE (R22) -/
  adaptTable : Vector Int 8
  /-- INITIAL_INDEX -/
  initialIndex : Nat
  /-- QUANT -/
  quantizer : Quantizer
  /-- RECON -/
  reconstruction : Reconstruction
  /-- IN8_SCALE -/
  in8Scale : Int
  /-- BIAS8 -/
  bias8 : Int
  /-- IN16_DIV -/
  in16Div : Nat
  /-- OUT8_DIV -/
  out8Div : Nat
  /-- OUT16_SCALE -/
  out16Scale : Int
  /-- DEFAULT_WIDTH -/
  defaultWidth : Width
  /-- BLOCK_SAMPLES -/
  blockSamples : Nat
  /-- SAMPLE16_ORDER -/
  sample16Order : ByteOrder
  /-- ALLOC_MAY_FAIL -/
  allocMayFail : Bool
  /-- DIV_MODE (I3) -/
  divMode : DivMode
  /-- SHORT_READ_IS_ERROR (I4) -/
  shortReadIsError : Bool
  /-- PAD_DOMAIN (I5) -/
  padDomain : PadDomain
  /-- BASE (R32, I19) -/
  base : Nat
  deriving DecidableEq, Repr

/-- TABLE_SIZE. -/
def Params.tableSize (P : Params) : Nat := P.stepTable.length

/-! ## Free values: constants with no body. No proof can see what they are. -/

/-- The 32-bit value that the n-th draw of the instance at a base address gives a read of RESULT or CODEC while RUNNING (R114, I7). -/
opaque Config.unspecifiedRead : Nat → Nat → Word

/-- How many bytes of a failed write were appended, at the n-th draw of the instance at a base address; more than the block has means
all (R36, I9). -/
opaque Config.failedWriteLength : Nat → Nat → Nat

/-- Whether an allocation the host reported nothing about succeeded, at the n-th draw of the instance at a base address (R92, I10). -/
opaque Config.allocOk : Nat → Nat → Bool

/-- STEP_TABLE at an index outside the table, which R15 says cannot happen. -/
opaque Config.stepOffTable : Nat → Nat

/-- QUANT number k: (k, |delta|, step size) to a 3-bit level (I2). -/
opaque Config.otherQuant : Nat → Nat → Nat → BitVec 3

/-- What RECON number k adds at level m: (k, m, step size). RECON is the sum over the levels up to m, so it is non-negative and
non-decreasing in m, as I2 asks. -/
opaque Config.otherReconStep : Nat → Nat → Nat → Nat

/-- The level where a quantizer's table has no row or no breakpoint: (|delta|, step size). -/
opaque Config.quantOffTable : Nat → Nat → BitVec 3

/-- What level m adds where a reconstruction's table has no row: (m, step size). -/
opaque Config.reconStepOffTable : Nat → Nat → Nat

end Sys2Proof
end

