-- ==== Sys2Proof/Machine/Profile.lean ====
section
/-! DEFINITION. Profile VOX-DEFAULT, the default of every parameter (R6), and the constraints of R7. -/

namespace Sys2Proof

/-- The 49 step sizes of R21, a row of the spec's table a line (the spec's own general knowledge: log 13). -/
def voxStepTable : List Nat :=
  [16, 17, 19, 21, 23, 25, 28, 31, 34, 37] ++
  [41, 45, 50, 55, 60, 66, 73, 80, 88, 97] ++
  [107, 118, 130, 143, 157, 173, 190, 209, 230, 253] ++
  [279, 307, 337, 371, 408, 449, 494, 544, 598, 658] ++
  [724, 796, 876, 963, 1060, 1166, 1282, 1411, 1552]

/-- The adaptation table of R22 (log 13). -/
def voxAdaptTable : Vector Int 8 := #v[-1, -1, -1, -1, 2, 4, 6, 8]

/-- Profile VOX-DEFAULT (R6). BASE has no default in the spec: 0 is the model's (DESIGN CHOICE, log 5). -/
def Params.voxDefault : Params where
  stepTable := voxStepTable
  adaptTable := voxAdaptTable
  initialIndex := 0
  quantizer := .successive
  reconstruction := .bitSum
  in8Scale := 16
  bias8 := 128
  in16Div := 16
  out8Div := 32
  out16Scale := 16
  defaultWidth := .w8
  blockSamples := 1024
  sample16Order := .little
  allocMayFail := false
  divMode := .truncate
  shortReadIsError := false
  padDomain := .working
  base := 0

/-- The constraints of R7. -/
def Params.valid (P : Params) : Bool :=
  decide (1 ≤ P.tableSize) && decide (P.tableSize ≤ 64)
    && P.stepTable.all (fun ss => decide (1 ≤ ss) && decide (ss ≤ 32767))
    && decide (P.initialIndex < P.tableSize)
    && P.adaptTable.toList.all (fun a => decide (-64 ≤ a) && decide (a ≤ 64))
    && decide (P.blockSamples % 2 = 0) && decide (2 ≤ P.blockSamples)
    && decide (1 ≤ P.in16Div) && decide (1 ≤ P.out8Div)

/-- PRED_MIN, which R7 fixes. -/
def predMin : Int := -2048

/-- PRED_MAX, which R7 fixes. -/
def predMax : Int := 2047

end Sys2Proof
end

