-- ==== Sys2Proof/Machine/State.lean ====
section
/-! DEFINITION. The state of one block instance (10_state.md) with the host's side of its interface (20_memory.md), the state
after reset (R112), and the reasons a step can stop. -/

namespace Sys2Proof.Machine

/-- PHASE, the sub-state of CTL = RUNNING (R20). -/
inductive Phase
  | readWait
  | process
  | writeWait
  deriving DecidableEq, Repr

/-- CTL, the controller's state (R19). PHASE exists only inside RUNNING (R20; DEDUCED, log 17). -/
inductive Ctl
  | idle
  | ready
  | running (phase : Phase)
  | done
  | failed
  deriving DecidableEq, Repr

/-- ERR, the fatal-error kind of the last stream (R23). -/
inductive Err
  | noError
  | alloc
  | io
  deriving DecidableEq, Repr

/-- The host's answer to a StreamRead (R35). -/
inductive ReadAnswer
  | ok (bytes : List Byte)
  | fail
  deriving DecidableEq, Repr

/-- The host's answer to a StreamWrite (R36). -/
inductive WriteAnswer
  | ok
  | fail
  deriving DecidableEq, Repr

/-- The source's CodecState, the pair (PRED, IDX) that the engine reads and writes (R13, R60). -/
structure CodecState where
  pred : BitVec 12
  idx : BitVec 6
  deriving DecidableEq, Repr

/-- One event: what the host does next, or the block's own turn (R12, R45; DESIGN CHOICE, log 1). -/
inductive Event
  /-- A read of `width` bits at host address `addr` (R34). -/
  | regRead (width addr : Nat)
  /-- A write of `width` bits at host address `addr` (R34). -/
  | regWrite (width addr : Nat) (value : Word)
  /-- The host's report on the next allocation (R45, R92). -/
  | allocReport (ok : Bool)
  /-- An answer to the outstanding StreamRead (R35). -/
  | readAnswer (answer : ReadAnswer)
  /-- An answer to the outstanding StreamWrite (R36). -/
  | writeAnswer (answer : WriteAnswer)
  /-- The block moves: it converts the block in BUF if PHASE = PROCESS (R39). -/
  | blockTurn
  /-- Reset (R112). -/
  | reset
  deriving DecidableEq, Repr

/-- The machine. The first group is the spec's state; the second is the instance's parameters; the third is the host's side. -/
structure State where
  /-- PRED (R14), read as two's complement. -/
  pred : BitVec 12
  /-- IDX (R15). -/
  idx : BitVec 6
  /-- RESULT (R16). -/
  result : Word
  /-- CFG_WIDTH (R17). -/
  cfgWidth : Width
  /-- CFG_DIR (R18). -/
  cfgDir : Dir
  /-- CTL with PHASE (R19, R20). -/
  ctl : Ctl
  /-- ERR (R23). -/
  err : Err
  /-- FALLBACK (R24). -/
  fallback : Bool
  /-- ILL (R25). -/
  ill : Bool
  /-- BUF (R26): the block read while PHASE = PROCESS, the block to write while PHASE = WRITE_WAIT. -/
  buf : List Byte
  /-- The instance's parameters (R6, R31): no step writes them (log 3). -/
  params : Params
  /-- What happens next, oldest first (log 1). -/
  inputs : List Event
  /-- The host's report on the next allocation (R45; log 9). -/
  allocReport : Option Bool
  /-- The bytes consumed from the input stream, in order (R32, R44). -/
  consumed : List Byte
  /-- The bytes appended to the output stream, in order (R32, R36). -/
  output : List Byte
  /-- What register reads returned, oldest first (R34). -/
  replies : List Word
  /-- How many free values were drawn (log 7). -/
  draws : Nat
  deriving DecidableEq, Repr

/-- Why a step stops the model: an act of the HOST that the spec gives no meaning. No command raises one. -/
inductive Fault
  /-- A register access that breaks R34 (R104; log 15). Raised by `deliver`. Safe: the run stops, and the block's state is as before. -/
  | busError
  /-- An answer to a request that is not outstanding, which R35 and R36 do not have (log 10). Raised by `deliver`. Safe. -/
  | unsolicitedAnswer
  /-- A read answer with more bytes than were asked for, which R35 forbids (log 10). Raised by `deliver`. Safe. -/
  | overlongAnswer
  deriving DecidableEq, Repr

/-- What the model gives no meaning. A command the BLOCK refuses is not this: it is a next state with ILL set (R100). -/
inductive Refusal
  /-- An instruction with no meaning yet; no arm of `exec` answers it. Safe. -/
  | notModelled (mnemonic : String)
  /-- A parameter set that breaks R7, which R7 lets a model refuse (log 4). Raised by `fetch`. Safe. -/
  | invalidParameters
  deriving DecidableEq, Repr

/-- The machine right after reset (R112), with the parameters of VOX-DEFAULT and a host that has done nothing yet. -/
def State.reset : State where
  pred := 0
  idx := BitVec.ofNat 6 Params.voxDefault.initialIndex
  result := 0
  cfgWidth := .w8
  cfgDir := .encode
  ctl := .idle
  err := .noError
  fallback := false
  ill := false
  buf := []
  params := Params.voxDefault
  inputs := []
  allocReport := none
  consumed := []
  output := []
  replies := []
  draws := 0

end Sys2Proof.Machine
end

