-- ==== Sys2Proof/Machine/Ops.lean ====
section
/-! DEFINITION. The operations every command shares: the integer operations of R9, the codec pair inside State, refusing a
command (R100), a fatal error (R101, R102), the free values, reset (R112). -/

namespace Sys2Proof.Machine

/-! ## Integer operations (R9) -/

/-- `clamp(x, lo, hi)` (R9). -/
def clamp (x lo hi : Int) : Int := if x < lo then lo else if x > hi then hi else x

/-- `a ÷ b`: truncating toward zero (R9, C1), or floor division under the other reading of I3. -/
def divide (mode : DivMode) (a : Int) (b : Nat) : Int :=
  match mode with
  | .truncate => Int.tdiv a b
  | .shift => Int.fdiv a b

/-! ## The codec pair -/

/-- The engine's state (R60). -/
def State.codec (s : State) : CodecState := { pred := s.pred, idx := s.idx }

/-- Write PRED and IDX. -/
def State.withCodec (s : State) (c : CodecState) : State := { s with pred := c.pred, idx := c.idx }

/-- Write RESULT (R16). -/
def State.withResult (s : State) (r : Word) : State := { s with result := r }

/-- Write CTL and PHASE (R89). -/
def State.withCtl (s : State) (c : Ctl) : State := { s with ctl := c }

/-- CTL = RUNNING. -/
def State.isRunning (s : State) : Bool :=
  match s.ctl with
  | .running _ => true
  | .idle => false
  | .ready => false
  | .done => false
  | .failed => false

/-! ## Errors: the block's counterpart of taking an exception (R108). There is no return (R109): OPEN clears ERR (R90). -/

/-- A refused command: ILL <- 1 and nothing else (R100). -/
def State.refuse (s : State) : State := { s with ill := true }

/-- A fatal error: CTL <- FAILED and ERR <- e (R101, R102). Nothing is saved and no vector is taken (R108). -/
def State.fatal (s : State) (e : Err) : State := { s with ctl := .failed, err := e }

/-- What a command does, given why it is refused or the state its effect leaves (R100). -/
def perform (s : State) (effect : Except RefuseReason State) : Host.Outcome State Fault Refusal :=
  match effect with
  | .error _ => .next s.refuse
  | .ok t => .next t

/-- The checks BUSY and OPERAND_RANGE, in that order (R105); `operand` is `none` where the value breaks its constraint. -/
def gate {α : Type} (s : State) (operand : Option α) : Except RefuseReason α :=
  if s.isRunning then .error .busy
  else match operand with
    | none => .error .operandRange
    | some x => .ok x

/-! ## Free values: each is a constant of the instance's BASE and its count of draws, so the draws of instances at different addresses
are unrelated, and those of two instances at one address, which no platform has, agree at equal counts (DESIGN CHOICE, log 7) -/

/-- One draw of an unspecified 32-bit value (R114; log 7). -/
def State.drawWord (s : State) : Word × State :=
  (Config.unspecifiedRead s.params.base s.draws, { s with draws := s.draws + 1 })

/-- The prefix of a failed write's bytes that was appended, any from none to all (R36, I9; log 8). -/
def State.drawPrefix (s : State) (bytes : List Byte) : List Byte × State :=
  (bytes.take (Config.failedWriteLength s.params.base s.draws), { s with draws := s.draws + 1 })

/-- Whether the buffer could be allocated (R92). When it can fail, the host's report decides, and a free value where the host
reported nothing (log 9). -/
def State.allocateBuffer (s : State) : Bool × State :=
  if s.params.allocMayFail then
    match s.allocReport with
    | some ok => (ok, { s with allocReport := none })
    | none => (Config.allocOk s.params.base s.draws, { s with draws := s.draws + 1 })
  else (true, s)

/-! ## Streams -/

/-- Bytes were appended to the output stream (R36). -/
def State.append (s : State) (bytes : List Byte) : State := { s with output := s.output ++ bytes }

/-- Bytes were consumed from the input stream (R44). -/
def State.consume (s : State) (bytes : List Byte) : State := { s with consumed := s.consumed ++ bytes }

/-! ## Reset -/

/-- Reset: every piece of the block's state at its value of R112, the host's side as it stands ("It does not touch the
host's streams"; log 20). BUF is unspecified after reset: empty here (DESIGN CHOICE, log 6). -/
def State.afterReset (s : State) : State :=
  { s with
    pred := 0
    idx := BitVec.ofNat 6 s.params.initialIndex
    result := 0
    cfgWidth := .w8
    cfgDir := .encode
    ctl := .idle
    err := .noError
    fallback := false
    ill := false
    buf := [] }

end Sys2Proof.Machine
end

