-- ==== Sys2Proof/Machine/Operands.lean ====
section
/-! DEFINITION. The operand forms of R49, each `none` where the value breaks its constraint, and the byte order of a 16-bit
sample (R37). No immediate is scaled or shifted (R49). -/

namespace Sys2Proof.Machine

/-- `sext_16(IMM)`, which must lie in −2048..2047: the operand of ENC and of NOUT (R49). -/
def sampleOperand (imm : BitVec 16) : Option Int :=
  if -2048 ≤ imm.toInt ∧ imm.toInt ≤ 2047 then some imm.toInt else none

/-- The operand of NIN: `zext_8(IMM[7:0])` with IMM[15:8] = 0 at width 8, `sext_16(IMM)` at width 16 (R49, R80). -/
def externalOperand (w : Width) (imm : BitVec 16) : Option Int :=
  match w with
  | .w8 => if imm.extractLsb' 8 8 = 0 then some (imm.extractLsb' 0 8).toNat else none
  | .w16 => some imm.toInt

/-- The bytes of one external sample: W / 8 (R94). -/
def widthBytes : Width → Nat
  | .w8 => 1
  | .w16 => 2

/-- `Join16(b0, b1)`, b0 the earlier byte of the stream (R37, R95). -/
def join16 (order : ByteOrder) (b0 b1 : Byte) : BitVec 16 :=
  match order with
  | .little => b1 ++ b0
  | .big => b0 ++ b1

/-- `Split16(y)` (R37, R96). -/
def split16 (order : ByteOrder) (y : BitVec 16) : List Byte :=
  match order with
  | .little => [y.extractLsb' 0 8, y.extractLsb' 8 8]
  | .big => [y.extractLsb' 8 8, y.extractLsb' 0 8]

end Sys2Proof.Machine
end

