-- ==== Sys2Proof/Machine/Flags.lean ====
section
/-! DEFINITION. STATUS and CODEC as the host reads them (R27, R28), and the width selector with its flag FALLBACK (R91). -/

namespace Sys2Proof.Machine

/-- STATUS.CTL (R19). -/
def Ctl.code : Ctl → BitVec 3
  | .idle => 0
  | .ready => 1
  | .running _ => 2
  | .done => 3
  | .failed => 4

/-- STATUS.ERR (R23). -/
def Err.code : Err → BitVec 2
  | .noError => 0
  | .alloc => 1
  | .io => 2

/-- STATUS.W16 (R27). -/
def w16Bit : Width → BitVec 1
  | .w8 => 0
  | .w16 => 1

/-- STATUS, its fields from bit 31 down (R27). -/
def statusWord (s : State) : Word :=
  (0 : BitVec 14) ++ w16Bit s.cfgWidth ++ s.cfgDir.bit ++ (0 : BitVec 6) ++ BitVec.ofBool s.ill
    ++ BitVec.ofBool s.fallback ++ (0 : BitVec 2) ++ s.err.code ++ (0 : BitVec 1) ++ s.ctl.code

/-- CODEC, its fields from bit 31 down (R28). -/
def codecWord (s : State) : Word :=
  (0 : BitVec 10) ++ s.idx ++ (0 : BitVec 4) ++ s.pred

/-- `ResolveWidth(wid)`: the width and FALLBACK (R91; log 23). -/
def resolveWidth (P : Params) (wid : BitVec 8) : Width × Bool :=
  if wid.toNat = 8 then (.w8, false)
  else if wid.toNat = 16 then (.w16, false)
  else (P.defaultWidth, true)

end Sys2Proof.Machine
end

