-- ==== Sys2Proof/Machine/Codec.lean ====
section
/-! DEFINITION. The codec engine (41_codec.md): its functions, then INIT, ENC and DEC. -/

namespace Sys2Proof.Machine

/-! ## Quantizer and reconstruction -/

/-- QUANT of VOX-DEFAULT: successive approximation against ss, ss >> 1 and ss >> 2 (R62; log 13). -/
def voxQuant (a ss : Nat) : BitVec 3 :=
  let r1 := if ss ≤ a then a - ss else a
  let r2 := if ss >>> 1 ≤ r1 then r1 - ss >>> 1 else r1
  BitVec.ofNat 3 ((if ss ≤ a then 4 else 0) + (if ss >>> 1 ≤ r1 then 2 else 0) + (if ss >>> 2 ≤ r2 then 1 else 0))

/-- RECON of VOX-DEFAULT: the bit-sum form (R63). -/
def voxRecon (m : BitVec 3) (ss : Nat) : Nat :=
  ss >>> 3 + (if m.getLsbD 2 then ss else 0) + (if m.getLsbD 1 then ss >>> 1 else 0)
    + (if m.getLsbD 0 then ss >>> 2 else 0)

/-- The level that breakpoints give |delta| = a: that of the last one not above a. -/
def levelAt (a : Nat) : List (Nat × BitVec 3) → Option (BitVec 3)
  | [] => none
  | (start, m) :: rest =>
    match levelAt a rest with
    | some n => some n
    | none => if start ≤ a then some m else none

/-- QUANT from a table; a free value where the table says nothing (log 12). -/
def tableQuant (rows : List (Nat × List (Nat × BitVec 3))) (a ss : Nat) : BitVec 3 :=
  ((rows.lookup ss).bind (levelAt a)).getD (Config.quantOffTable a ss)

/-- The sum of what the levels 0 to m add: non-negative and non-decreasing in m (I2). -/
def runningSum (step : Nat → Nat) : Nat → Nat
  | 0 => step 0
  | m + 1 => runningSum step m + step (m + 1)

/-- What level m adds in a table of RECON; a free value where the table has no row (log 12). -/
def tableReconStep (rows : List (Nat × Vector Nat 8)) (ss m : Nat) : Nat :=
  match rows.lookup ss with
  | some row => row.toList.getD m 0
  | none => Config.reconStepOffTable m ss

/-- QUANT(a, ss) (R62, R6). -/
def quant (P : Params) (a ss : Nat) : BitVec 3 :=
  match P.quantizer with
  | .successive => voxQuant a ss
  | .table rows => tableQuant rows a ss
  | .other k => Config.otherQuant k a ss

/-- RECON(m, ss) (R63, R6). -/
def recon (P : Params) (m : BitVec 3) (ss : Nat) : Nat :=
  match P.reconstruction with
  | .bitSum => voxRecon m ss
  | .table rows => runningSum (tableReconStep rows ss) m.toNat
  | .other k => runningSum (fun l => Config.otherReconStep k l ss) m.toNat

/-! ## The engine (R60 to R68) -/

/-- The step size STEP_TABLE[IDX] (R61). An IDX outside the table cannot happen (R15): a free value there (log 11). -/
def stepSize (P : Params) (idx : BitVec 6) : Nat :=
  P.stepTable.getD idx.toNat (Config.stepOffTable idx.toNat)

/-- ADAPT_TABLE[m] (R22). -/
def adaptation (P : Params) (m : BitVec 3) : Int := P.adaptTable[m.toFin]

/-- The sign bit S of a code (R53). -/
def Code.sign (code : Code) : Bool := code.getLsbD 3

/-- The magnitude level M of a code (R53). -/
def Code.level (code : Code) : BitVec 3 := code.extractLsb' 0 3

/-- The reconstructed delta of a code at a step size (R63, R64). -/
def delta (P : Params) (code : Code) (ss : Nat) : Int :=
  if Code.sign code then -(recon P (Code.level code) ss : Int) else (recon P (Code.level code) ss : Int)

/-- UPDATE(code): both writes are computed from the values before the call, and the sum is exact before the clamp (R64, R65,
R66, D37; the 6 bits hold every index of a table that R7 allows, log 22). -/
def update (P : Params) (c : CodecState) (code : Code) : CodecState where
  pred := BitVec.ofInt 12 (clamp (c.pred.toInt + delta P code (stepSize P c.idx)) predMin predMax)
  idx := BitVec.ofInt 6 (clamp ((c.idx.toNat : Int) + adaptation P (Code.level code)) 0 ((P.tableSize : Int) - 1))

/-- The code that Encode(s) emits: S the sign of d = s − PRED, M = QUANT(|d|, ss) (R62, R67). -/
def encodeCode (P : Params) (c : CodecState) (s : Int) : Code :=
  BitVec.ofBool (decide (s - c.pred.toInt < 0)) ++ quant P (s - c.pred.toInt).natAbs (stepSize P c.idx)

/-- Encode(s): the code, and the state after UPDATE(code) (R67). R67 takes an s in −2048..2047; under other normalizer literals a stream's
samples can lie outside, and then the same pseudocode is applied to the exact s, with no clamp (DESIGN CHOICE, log 25). -/
def encodeSample (P : Params) (c : CodecState) (s : Int) : Code × CodecState :=
  (encodeCode P c s, update P c (encodeCode P c s))

/-- Decode(code): the updated predictor, and the state after UPDATE(code) (R68). -/
def decodeCode (P : Params) (c : CodecState) (code : Code) : Int × CodecState :=
  ((update P c code).pred.toInt, update P c code)

/-- The codec's init: (0, INITIAL_INDEX) (R69). -/
def initCodec (P : Params) : CodecState where
  pred := 0
  idx := BitVec.ofNat 6 P.initialIndex

/-! ## Commands -/

/-- The effect of INIT (R69). -/
def initEffect (s : State) : Except RefuseReason State :=
  match gate s (some ()) with
  | .error r => .error r
  | .ok _ => .ok (s.withCodec (initCodec s.params))

/-- INIT (R69). -/
def execInit (s : State) : Host.Outcome State Fault Refusal := perform s (initEffect s)

/-- The effect of ENC (R70). -/
def encEffect (imm : BitVec 16) (s : State) : Except RefuseReason State :=
  match gate s (sampleOperand imm) with
  | .error r => .error r
  | .ok x =>
    let (code, c) := encodeSample s.params s.codec x
    .ok ((s.withCodec c).withResult (code.setWidth 32))

/-- ENC (R70). -/
def execEnc (imm : BitVec 16) (s : State) : Host.Outcome State Fault Refusal := perform s (encEffect imm s)

/-- The effect of DEC (R71). -/
def decEffect (code : Code) (s : State) : Except RefuseReason State :=
  match gate s (some code) with
  | .error r => .error r
  | .ok x =>
    let (v, c) := decodeCode s.params s.codec x
    .ok ((s.withCodec c).withResult (BitVec.ofInt 32 v))

/-- DEC (R71). -/
def execDec (code : Code) (s : State) : Host.Outcome State Fault Refusal := perform s (decEffect code s)

end Sys2Proof.Machine
end

