-- ==== Sys2Proof/Machine/Normalizer.lean ====
section
/-! DEFINITION. The bit-depth normalizer (42_normalizer.md): its four functions, then NIN and NOUT. It has no state; the width
is CFG_WIDTH (R82). -/

namespace Sys2Proof.Machine

/-- ToInternal8(u) (R76). -/
def toInternal8 (P : Params) (u : Int) : Int := (u - P.bias8) * P.in8Scale

/-- ToInternal16(x) (R77). -/
def toInternal16 (P : Params) (x : Int) : Int := divide P.divMode x P.in16Div

/-- FromInternal8(v): reduced mod 256, with no clamp (R78). -/
def fromInternal8 (P : Params) (v : Int) : Byte := BitVec.ofInt 8 (divide P.divMode v P.out8Div + P.bias8)

/-- FromInternal16(v): `bits_16`, which wraps (R79, D9). -/
def fromInternal16 (P : Params) (v : Int) : BitVec 16 := BitVec.ofInt 16 (v * P.out16Scale)

/-- An external sample to the working value, at a width (R80, R95). -/
def toInternal (P : Params) (w : Width) (x : Int) : Int :=
  match w with
  | .w8 => toInternal8 P x
  | .w16 => toInternal16 P x

/-- The RESULT of NOUT: zero-extended at width 8, sign-extended at width 16 (R81). -/
def outResult (P : Params) (w : Width) (v : Int) : Word :=
  match w with
  | .w8 => (fromInternal8 P v).setWidth 32
  | .w16 => (fromInternal16 P v).signExtend 32

/-- A working value to the bytes of one external sample, in stream order (R96). -/
def outBytes (P : Params) (w : Width) (v : Int) : List Byte :=
  match w with
  | .w8 => [fromInternal8 P v]
  | .w16 => split16 P.sample16Order (fromInternal16 P v)

/-- The effect of NIN (R80). -/
def ninEffect (imm : BitVec 16) (s : State) : Except RefuseReason State :=
  match gate s (externalOperand s.cfgWidth imm) with
  | .error r => .error r
  | .ok x => .ok (s.withResult (BitVec.ofInt 32 (toInternal s.params s.cfgWidth x)))

/-- NIN (R80). -/
def execNin (imm : BitVec 16) (s : State) : Host.Outcome State Fault Refusal := perform s (ninEffect imm s)

/-- The effect of NOUT (R81). -/
def noutEffect (imm : BitVec 16) (s : State) : Except RefuseReason State :=
  match gate s (sampleOperand imm) with
  | .error r => .error r
  | .ok v => .ok (s.withResult (outResult s.params s.cfgWidth v))

/-- NOUT (R81). -/
def execNout (imm : BitVec 16) (s : State) : Host.Outcome State Fault Refusal := perform s (noutEffect imm s)

end Sys2Proof.Machine
end

