-- ==== Sys2Proof/Machine/Packer.lean ====
section
/-! DEFINITION. The nibble packer and unpacker (43_packer.md). No register holds a pending nibble (R88). -/

namespace Sys2Proof.Machine

/-- Pack(a, b) = (a << 4) | b: the first code in the high nibble (R84). -/
def pack (a b : Code) : Byte := a ++ b

/-- Unpack(byte): the high nibble, then the low nibble (R85). -/
def unpack (b : Byte) : Code × Code := (b.extractLsb' 4 4, b.extractLsb' 0 4)

/-- Codes packed two to a byte, in order (R95). The pipeline gives it an even number of them (R86, R88). -/
def packAll : List Code → List Byte
  | a :: b :: rest => pack a b :: packAll rest
  | [_] => []
  | [] => []

/-- The codes of a list of bytes, in the order they are decoded (R85, R96). -/
def unpackAll : List Byte → List Code
  | [] => []
  | b :: rest => (unpack b).1 :: (unpack b).2 :: unpackAll rest

end Sys2Proof.Machine
end

