-- ==== Sys2Proof/Machine/Pipeline.lean ====
section
/-! DEFINITION. The streaming pipeline controller (44_pipeline.md): block conversion, the steps of the block loop, then OPEN and
RUN. -/

namespace Sys2Proof.Machine

/-! ## Block conversion -/

/-- Encode in stream order, each call from the state the one before left (R60, R95). -/
def encodeAll (P : Params) (c : CodecState) : List Int → List Code × CodecState
  | [] => ([], c)
  | s :: rest =>
    let (code, c1) := encodeSample P c s
    let (codes, c2) := encodeAll P c1 rest
    (code :: codes, c2)

/-- Decode in stream order (R60, R96). -/
def decodeAll (P : Params) (c : CodecState) : List Code → List Int × CodecState
  | [] => ([], c)
  | code :: rest =>
    let (v, c1) := decodeCode P c code
    let (vs, c2) := decodeAll P c1 rest
    (v :: vs, c2)

/-- The 16-bit samples of a block: an odd trailing byte is dropped (R95, D13). -/
def samples16 (order : ByteOrder) : List Byte → List Int
  | b0 :: b1 :: rest => (join16 order b0 b1).toInt :: samples16 order rest
  | [_] => []
  | [] => []

/-- The external samples of a block (R55, R56, R95). -/
def externalSamples (P : Params) (w : Width) (bytes : List Byte) : List Int :=
  match w with
  | .w8 => bytes.map (fun b => (b.toNat : Int))
  | .w16 => samples16 P.sample16Order bytes

/-- The working value of the padding sample: 0 (R86, D14), or the external 0 normalized under the other reading of I5. -/
def padSample (P : Params) (w : Width) : Int :=
  match P.padDomain with
  | .working => 0
  | .external => toInternal P w 0

/-- A list of working values, with the padding sample after them when their number is odd (R86). -/
def padded (P : Params) (w : Width) (samples : List Int) : List Int :=
  if samples.length % 2 = 1 then samples ++ [padSample P w] else samples

/-- EncodeBlock(bytes): the packed bytes and the codec state after the block (R95). -/
def encodeBlock (P : Params) (w : Width) (c : CodecState) (bytes : List Byte) : List Byte × CodecState :=
  let (codes, c1) := encodeAll P c (padded P w ((externalSamples P w bytes).map (toInternal P w)))
  (packAll codes, c1)

/-- DecodeBlock(bytes): the external bytes and the codec state after the block (R96). -/
def decodeBlock (P : Params) (w : Width) (c : CodecState) (bytes : List Byte) : List Byte × CodecState :=
  let (vs, c1) := decodeAll P c (unpackAll bytes)
  ((vs.map (outBytes P w)).flatten, c1)

/-- The block conversion of the stream's direction (R93). -/
def convertBlock (P : Params) (dir : Dir) (w : Width) (c : CodecState) (bytes : List Byte) : List Byte × CodecState :=
  match dir with
  | .encode => encodeBlock P w c bytes
  | .decode => decodeBlock P w c bytes

/-! ## The block loop (R89, R93) -/

/-- ReqBytes(), the size of each read request (R94). -/
def reqBytes (s : State) : Nat :=
  match s.cfgDir with
  | .encode => s.params.blockSamples * widthBytes s.cfgWidth
  | .decode => s.params.blockSamples / 2

/-- A request on a stream port (R35, R36). -/
inductive Request
  | streamRead (n : Nat)
  | streamWrite (bytes : List Byte)
  deriving DecidableEq, Repr

/-- The outstanding request: at most one, by CTL and PHASE (R20, R40, R89). -/
def outstanding (s : State) : Option Request :=
  match s.ctl with
  | .running .readWait => some (.streamRead (reqBytes s))
  | .running .writeWait => some (.streamWrite s.buf)
  | .running .process => none
  | .idle => none
  | .ready => none
  | .done => none
  | .failed => none

/-- The block's own move: in PROCESS it converts BUF, and the output goes to BUF for the StreamWrite, or, where it is empty,
the next StreamRead is issued (R89, R93). In every other state it waits for the host. -/
def State.blockMove (s : State) : State :=
  match s.ctl with
  | .running .process =>
    let (out, c) := convertBlock s.params s.cfgDir s.cfgWidth s.codec s.buf
    match out with
    | [] => (s.withCodec c).withCtl (.running .readWait)
    | _ :: _ => { s.withCodec c with buf := out, ctl := .running .writeWait }
  | .running .readWait => s
  | .running .writeWait => s
  | .idle => s
  | .ready => s
  | .done => s
  | .failed => s

/-- The effect of a read answer `ok(bytes)` (R93, R97): a zero-length read ends the stream; a short read is a valid block
(C2), or an IOError under the other reading of I4 (log 18). -/
def State.takeBytes (s : State) (bytes : List Byte) : State :=
  match bytes with
  | [] => s.withCtl .done
  | _ :: _ =>
    if s.params.shortReadIsError && decide (bytes.length < reqBytes s) then (s.consume bytes).fatal .io
    else { s.consume bytes with buf := bytes, ctl := .running .process }

/-- A read answer (R35, R89, R97). -/
def readAnswered (answer : ReadAnswer) (s : State) : Host.Outcome State Fault Refusal :=
  match outstanding s with
  | some (.streamRead n) =>
    match answer with
    | .fail => .next (s.fatal .io)
    | .ok bytes => if n < bytes.length then .fault .overlongAnswer else .next (s.takeBytes bytes)
  | some (.streamWrite _) => .fault .unsolicitedAnswer
  | none => .fault .unsolicitedAnswer

/-- A write answer (R36, R89, R97): `ok` appended every byte, `fail` some prefix of them. -/
def writeAnswered (answer : WriteAnswer) (s : State) : Host.Outcome State Fault Refusal :=
  match outstanding s with
  | some (.streamWrite bytes) =>
    match answer with
    | .ok => .next ((s.append bytes).withCtl (.running .readWait))
    | .fail =>
      let (written, t) := s.drawPrefix bytes
      .next ((t.append written).fatal .io)
  | some (.streamRead _) => .fault .unsolicitedAnswer
  | none => .fault .unsolicitedAnswer

/-! ## Commands -/

/-- OPEN's writes before the allocation: direction, width, FALLBACK, codec init, ERR <- NONE (R90, D29). -/
def State.configured (s : State) (dir : Dir) (wid : BitVec 8) : State :=
  { s.withCodec (initCodec s.params) with
    cfgDir := dir
    cfgWidth := (resolveWidth s.params wid).1
    fallback := (resolveWidth s.params wid).2
    err := .noError }

/-- The effect of OPEN (R90). -/
def openEffect (dir : Dir) (wid : BitVec 8) (s : State) : Except RefuseReason State :=
  match gate s (some ()) with
  | .error r => .error r
  | .ok _ =>
    let (ok, t) := (s.configured dir wid).allocateBuffer
    .ok (if ok then t.withCtl .ready else t.fatal .alloc)

/-- OPEN (R90). -/
def execOpen (dir : Dir) (wid : BitVec 8) (s : State) : Host.Outcome State Fault Refusal :=
  perform s (openEffect dir wid s)

/-- The effect of RUN's write: CTL <- RUNNING with the first StreamRead issued; the loop runs as steps of the block (R93). -/
def runEffect (s : State) : Except RefuseReason State :=
  match gate s (some ()) with
  | .error r => .error r
  | .ok _ => if s.ctl = .ready then .ok (s.withCtl (.running .readWait)) else .error .runNotReady

/-- RUN (R93). -/
def execRun (s : State) : Host.Outcome State Fault Refusal := perform s (runEffect s)

end Sys2Proof.Machine
end

