-- ==== Sys2Proof/Machine/Dispatch.lean ====
section
/-! DEFINITION. The meaning of every command, one arm each (R47). -/

namespace Sys2Proof.Machine

def exec (i : Instr) (s : State) : Host.Outcome State Fault Refusal :=
  match i with
  | .openStream dir wid => Sys2Proof.Machine.execOpen dir wid s
  | .init => Sys2Proof.Machine.execInit s
  | .enc imm => Sys2Proof.Machine.execEnc imm s
  | .dec code => Sys2Proof.Machine.execDec code s
  | .nin imm => Sys2Proof.Machine.execNin imm s
  | .nout imm => Sys2Proof.Machine.execNout imm s
  | .run => Sys2Proof.Machine.execRun s

end Sys2Proof.Machine
end

