-- ==== Sys2Proof/Machine/Fetch.lean ====
section
/-! DEFINITION. What a step does before and instead of executing a command: the host's register accesses (R33, R34), its
answers, reset, the block's turn; and the reason a command word is refused (R100, R105). -/

namespace Sys2Proof.Machine

/-! ## The register window -/

/-- The four registers of R33. -/
inductive Reg
  | cmd
  | result
  | status
  | codec
  deriving DecidableEq, Repr

/-- The register at a host address: its offset from BASE is in R33's table (so it is a multiple of 4). -/
def regAt (P : Params) (addr : Nat) : Option Reg :=
  if addr = P.base then some .cmd
  else if addr = P.base + 4 then some .result
  else if addr = P.base + 8 then some .status
  else if addr = P.base + 12 then some .codec
  else none

/-- The value of a register read and the state after it, `none` for a bus error (R34). While RUNNING, RESULT and CODEC are
unspecified and STATUS is exact (R114); a read changes nothing else. -/
def readRegister (width addr : Nat) (s : State) : Option (Word × State) :=
  if width = 32 then
    match regAt s.params addr with
    | some .result => some (if s.isRunning then s.drawWord else (s.result, s))
    | some .status => some (statusWord s, s)
    | some .codec => some (if s.isRunning then s.drawWord else (codecWord s, s))
    | some .cmd => none
    | none => none
  else none

/-- Whether a write reaches CMD as R34 asks: 32 bits wide, at CMD. Every other write is a bus error. -/
def writesCmd (P : Params) (width addr : Nat) : Bool :=
  decide (width = 32) && decide (regAt P addr = some .cmd)

/-- The value goes back to the host. -/
def State.reply (s : State) (v : Word) : State := { s with replies := s.replies ++ [v] }

/-! ## Refusals (R100) -/

/-- What a command does, or why it is refused (R100); for the reason codes only: `exec` runs the meanings. -/
def effectOf (i : Instr) (s : State) : Except RefuseReason State :=
  match i with
  | .openStream dir wid => openEffect dir wid s
  | .init => initEffect s
  | .enc imm => encEffect imm s
  | .dec code => decEffect code s
  | .nin imm => ninEffect imm s
  | .nout imm => noutEffect imm s
  | .run => runEffect s

/-- Why a word written to CMD is refused, the first reason in R105's order that applies (R50 words it otherwise: log 26); `none` where it is executed. -/
def refuseReason (s : State) (w : Word) : Option RefuseReason :=
  if s.isRunning then some .busy
  else match decode w with
    | .error r => some r
    | .ok i =>
      match effectOf i s with
      | .error r => some r
      | .ok _ => none

/-! ## What comes next -/

/-- What a step finds: a command to execute, or the outcome of anything else. -/
inductive Fetched
  | command (i : Instr) (s : State)
  | moved (o : Host.Outcome State Fault Refusal)

/-- One event, taken off `inputs` already. A written word is decoded; one that no row of R48 selects is refused (R51). -/
def deliver (e : Event) (s : State) : Fetched :=
  match e with
  | .regRead width addr =>
    match readRegister width addr s with
    | some (v, t) => .moved (.next (t.reply v))
    | none => .moved (.fault .busError)
  | .regWrite width addr value =>
    if writesCmd s.params width addr then
      match decode value with
      | .ok i => .command i s
      | .error _ => .moved (.next s.refuse)
    else .moved (.fault .busError)
  | .allocReport ok => .moved (.next { s with allocReport := some ok })
  | .readAnswer answer => .moved (readAnswered answer s)
  | .writeAnswer answer => .moved (writeAnswered answer s)
  | .blockTurn => .moved (.next s.blockMove)
  | .reset => .moved (.next s.afterReset)

/-- The next event of `inputs`; where there is none, the block moves on its own (log 1). A parameter set that breaks R7 is
refused (log 4). -/
def fetch (s : State) : Fetched :=
  if s.params.valid then
    match s.inputs with
    | [] => .moved (.next s.blockMove)
    | e :: rest => deliver e { s with inputs := rest }
  else .moved (.refused .invalidParameters)

/-- The host's next act is to write the word to CMD. -/
def State.commanded (s : State) (w : Word) : State :=
  { s with inputs := .regWrite 32 s.params.base w :: s.inputs }

end Sys2Proof.Machine
end

