-- ==== Sys2Proof/Machine/Step.lean ====
section
/-! DEFINITION. One step of the machine, and the placing of a command where the next step finds it. -/

namespace Sys2Proof.Machine

/-- One step: what `fetch` finds, a command executed (R39, R119). -/
def step (s : State) : Host.Outcome State Fault Refusal :=
  match fetch s with
  | .command i t => exec i t
  | .moved o => o

/-- The host writes the word whose bits below `nbits` are those of `w` to CMD next (R42, R46; log 2). -/
def State.withFetchWord (s : State) (nbits w : Nat) : State :=
  s.commanded (BitVec.ofNat 32 (w % 2 ^ nbits))

end Sys2Proof.Machine
end

