-- ==== Sys2Proof/Machine/Assembler.lean ====
section
/-! DEFINITION. The assembly syntax of R58 and the pseudo-instruction of R59: a line of text to command words. Letters are as R58
writes them, spaces may surround an operand (DESIGN CHOICE, log 19). -/

namespace Sys2Proof.Machine

/-- A line of assembly, its operands the integers written in it (R58, R59). -/
inductive AsmLine
  | openStream (dir : Dir) (wid : Int)
  | init
  | enc (s : Int)
  | dec (c : Int)
  | nin (x : Int)
  | nout (v : Int)
  | run
  | convert (dir : Dir) (wid : Int)
  deriving DecidableEq, Repr

/-- `x` if it lies in lo..hi: an assembler rejects an operand outside its range (R58). -/
def inRange (lo hi x : Int) : Option Int := if lo ≤ x ∧ x ≤ hi then some x else none

/-- The commands of a line, `none` where an operand is out of range (R58). NIN accepts −32768..65535, since the assembler
does not know CFG_WIDTH. CONVERT is OPEN, then RUN (R59). -/
def AsmLine.commands : AsmLine → Option (List Instr)
  | .openStream dir wid => (inRange 0 255 wid).map (fun x => [.openStream dir (BitVec.ofInt 8 x)])
  | .init => some [.init]
  | .enc s => (inRange (-2048) 2047 s).map (fun x => [.enc (BitVec.ofInt 16 x)])
  | .dec c => (inRange 0 15 c).map (fun x => [.dec (BitVec.ofInt 4 x)])
  | .nin x => (inRange (-32768) 65535 x).map (fun y => [.nin (BitVec.ofInt 16 y)])
  | .nout v => (inRange (-2048) 2047 v).map (fun x => [.nout (BitVec.ofInt 16 x)])
  | .run => some [.run]
  | .convert dir wid => (inRange 0 255 wid).map (fun x => [.openStream dir (BitVec.ofInt 8 x), .run])

/-- The command words of a line. -/
def AsmLine.words (line : AsmLine) : Option (List Word) := line.commands.map (fun is => is.map encode)

/-! ## Text -/

/-- A decimal or hexadecimal digit, in a base of 10 or 16. -/
def digit (base : Nat) (c : Char) : Option Nat :=
  let n := c.toNat
  let d := if 48 ≤ n ∧ n ≤ 57 then n - 48
    else if 65 ≤ n ∧ n ≤ 70 then n - 55
    else if 97 ≤ n ∧ n ≤ 102 then n - 87
    else 16
  if d < base then some d else none

/-- The number that digits write, after the value read so far. -/
def digits (base acc : Nat) : List Char → Option Nat
  | [] => some acc
  | c :: rest =>
    match digit base c with
    | some d => digits base (acc * base + d) rest
    | none => none

/-- An unsigned number: decimal, or hexadecimal with `0x` (R58). -/
def unsigned : List Char → Option Nat
  | [] => none
  | ['0', 'x'] => none
  | '0' :: 'x' :: rest => digits 16 0 rest
  | c :: rest => digits 10 0 (c :: rest)

/-- A number, with a sign or without one (R58). -/
def number : List Char → Option Int
  | '-' :: rest => (unsigned rest).map (fun n => -(n : Int))
  | rest => (unsigned rest).map (fun n => (n : Int))

/-- The text without the spaces at its ends. -/
def trimmed (cs : List Char) : List Char :=
  ((cs.dropWhile (· == ' ')).reverse.dropWhile (· == ' ')).reverse

/-- The text cut at its commas. -/
def fields : List Char → List (List Char)
  | [] => [[]]
  | c :: rest =>
    if c = ',' then [] :: fields rest
    else match fields rest with
      | [] => [[c]]
      | f :: fs => (c :: f) :: fs

/-- `enc` is DIR = 0, `dec` is DIR = 1 (R58). -/
def direction (cs : List Char) : Option Dir :=
  if cs = "enc".toList then some .encode
  else if cs = "dec".toList then some .decode
  else none

/-- A direction and a width. -/
def streamOperands (mk : Dir → Int → AsmLine) (d w : List Char) : Option AsmLine :=
  match direction d, number w with
  | some dir, some wid => some (mk dir wid)
  | _, _ => none

/-- A line: the mnemonic, then its operands separated by commas (R58). -/
def parseLine (text : String) : Option AsmLine :=
  let cs := trimmed text.toList
  let mnemonic := cs.takeWhile (· != ' ')
  let ops := (fields (trimmed (cs.dropWhile (· != ' ')))).map trimmed
  match ops with
  | [[]] =>
    if mnemonic = "INIT".toList then some .init
    else if mnemonic = "RUN".toList then some .run
    else none
  | [x] =>
    if mnemonic = "ENC".toList then (number x).map .enc
    else if mnemonic = "DEC".toList then (number x).map .dec
    else if mnemonic = "NIN".toList then (number x).map .nin
    else if mnemonic = "NOUT".toList then (number x).map .nout
    else none
  | [d, w] =>
    if mnemonic = "OPEN".toList then streamOperands .openStream d w
    else if mnemonic = "CONVERT".toList then streamOperands .convert d w
    else none
  | _ => none

/-- The command words of a line of text. -/
def assembleText (text : String) : Option (List Word) := (parseLine text).bind AsmLine.words

end Sys2Proof.Machine
end

