-- ==== Sys2Proof/Machine/Instances.lean ====
section
/-! DEFINITION. Several block instances (R12, R106): each has all of the state as its own, and one of them moves at a time (the
order in which they move is the caller's; log 16). -/

namespace Sys2Proof.Machine

/-- Instance `k` takes one step; the others keep their state (R106). Where its step is a fault or a refusal, the run of the whole vector
ends with it: R104 faults the run that makes a bad access and says nothing of the other instances (DESIGN CHOICE, log 16; safe). -/
def stepAt {n : Nat} (k : Fin n) (blocks : Vector State n) : Host.Outcome (Vector State n) Fault Refusal :=
  match step blocks[k] with
  | .next t => .next (blocks.set k t)
  | .fault r => .fault r
  | .refused r => .refused r

end Sys2Proof.Machine
end

