-- ==== Sys2Proof/Safety.lean ====
section
/-! DEFINITION. What claims about whole runs are stated in: the invariant of the machine, the host that serves a stream block by
block, and the conversion of a stream as a function. -/

namespace Sys2Proof.Machine

/-- What holds of the machine from reset on. -/
structure Inv (s : State) : Prop where
  /-- The parameters keep R7. -/
  paramsValid : s.params.valid = true
  /-- IDX lies in the table (R15). -/
  idxInTable : s.idx.toNat < s.params.tableSize
  /-- ERR says which error CTL = FAILED ended in, and nothing else (R19, R23). -/
  errIffFailed : s.ctl = .failed ↔ s.err ≠ .noError
  /-- AllocationFailure needs an allocation that can fail (R101). -/
  allocNeedsAllocMayFail : s.err = .alloc → s.params.allocMayFail = true
  /-- FALLBACK says that the width is the default one (R91). -/
  fallbackWidth : s.fallback = true → s.cfgWidth = s.params.defaultWidth
  /-- The block to convert is not empty and not longer than it was asked for (R35, R89). -/
  blockRead : s.ctl = .running .process → 1 ≤ s.buf.length ∧ s.buf.length ≤ reqBytes s
  /-- The block to write is not empty (R36) and fits BUF (R26). -/
  blockToWrite : s.ctl = .running .writeWait →
    1 ≤ s.buf.length ∧ s.buf.length ≤ s.params.blockSamples * widthBytes s.cfgWidth

/-! ## A host that serves a stream -/

/-- Whether a block yields no output, so that no write is issued: width-16 encode of fewer than two bytes (R93). -/
def silent (dir : Dir) (w : Width) (block : List Byte) : Bool :=
  match dir, w with
  | .encode, .w16 => decide (block.length < 2)
  | .encode, .w8 => decide (block.length = 0)
  | .decode, .w8 => decide (block.length = 0)
  | .decode, .w16 => decide (block.length = 0)

/-- The events of one block of a stream that succeeds: the read answer, the conversion, the write answer where there is a
write (R93). -/
def blockEvents (dir : Dir) (w : Width) (block : List Byte) : List Event :=
  [.readAnswer (.ok block), .blockTurn] ++ (if silent dir w block then [] else [.writeAnswer .ok])

/-- The events of a whole stream that succeeds, with the zero-length read at its end (R93). -/
def streamEvents (dir : Dir) (w : Width) (blocks : List (List Byte)) : List Event :=
  (blocks.map (blockEvents dir w)).flatten ++ [.readAnswer (.ok [])]

/-- A stream's blocks converted one after the other: all the output, and the codec state after it (R40, R98). -/
def convertBlocks (P : Params) (dir : Dir) (w : Width) (c : CodecState) : List (List Byte) → List Byte × CodecState
  | [] => ([], c)
  | block :: rest =>
    let (out, c1) := convertBlock P dir w c block
    let (outs, c2) := convertBlocks P dir w c1 rest
    (out ++ outs, c2)

end Sys2Proof.Machine
end

