-- ==== Sys2Proof/Certificates/Slice0/Obligations.lean ====
section
/-! DEFINITION. The statements about the machine, after the words they are made of (`Sys2Proof.Claims`). -/

namespace Sys2Proof.Claims

open Sys2Proof.Machine

/-! ## The spec's tables, written a second time for the statements -/

/-- OP = w[31:28] (R46), as a number. -/
def op (w : Word) : Nat := (w.extractLsb' 28 4).toNat

/-- WID = w[23:16] (R46), as a number. -/
def wid (w : Word) : Nat := (w.extractLsb' 16 8).toNat

/-- IMM = w[15:0] (R46), as a signed number. -/
def simm (w : Word) : Int := (w.extractLsb' 0 16).toInt

/-- −2048 ≤ x ≤ 2047 (R49). -/
def is12 (x : Int) : Bool := decide (-2048 ≤ x) && decide (x ≤ 2047)

/-- The word matches one of the seven rows of R48. -/
def rowMatches (w : Word) : Bool :=
  decide (w &&& 0xF700FFFF = 0x10000000) || decide (w &&& 0xFFFFFFFF = 0x20000000)
    || decide (w &&& 0xFFFF0000 = 0x30000000) || decide (w &&& 0xFFFFFFF0 = 0x40000000)
    || decide (w &&& 0xFFFF0000 = 0x50000000) || decide (w &&& 0xFFFF0000 = 0x60000000)
    || decide (w &&& 0xFFFFFFFF = 0x70000000)

/-- OP is a reserved one (R47). -/
def reservedOp (w : Word) : Bool := decide (op w = 0) || decide (8 ≤ op w)

/-- The operand breaks its constraint of R49, against the state at the time of the write. -/
def rangeBroken (s : State) (w : Word) : Bool :=
  (decide (op w = 3) && !is12 (simm w)) || (decide (op w = 6) && !is12 (simm w))
    || (decide (op w = 5) && decide (s.cfgWidth = .w8) && decide (w.extractLsb' 8 8 ≠ 0))

/-- RUN is written while CTL is not READY (R50). -/
def runNotReady (s : State) (w : Word) : Bool := decide (op w = 7) && decide (s.ctl ≠ .ready)

/-- The word is refused: one of (a) to (d) of R51. -/
def refused (s : State) (w : Word) : Bool :=
  s.isRunning || reservedOp w || !rowMatches w || rangeBroken s w || runNotReady s w

/-- The codec state after any sequence of Encode (left) and Decode (right) calls. -/
def afterCalls (P : Params) (c : CodecState) : List (Int ⊕ Code) → CodecState
  | [] => c
  | .inl x :: rest => afterCalls P (encodeSample P c x).2 rest
  | .inr code :: rest => afterCalls P (decodeCode P c code).2 rest

/-! The block conversions byte by byte (R95, R96), from the normalizer's four functions, the engine and the packer. -/

/-- The working value of an 8-bit sample of the input stream: zext_8 of its byte, normalized (R55, R95). -/
def sample8 (P : Params) (b : Byte) : Int := toInternal8 P b.toNat

/-- The working value of a 16-bit sample of the input stream, `b0` the earlier byte: two's complement of its bytes in SAMPLE16_ORDER,
normalized (R37, R56, R95). -/
def sample16 (P : Params) (b0 b1 : Byte) : Int :=
  match P.sample16Order with
  | .little => toInternal16 P (Int.bmod (b0.toNat + 256 * b1.toNat) 65536)
  | .big => toInternal16 P (Int.bmod (256 * b0.toNat + b1.toNat) 65536)

/-- The working value that pads an odd block: 0 (R86), or the external 0 normalized under the other reading of I5. -/
def padding (P : Params) (w : Width) : Int :=
  match P.padDomain, w with
  | .working, _ => 0
  | .external, .w8 => toInternal8 P 0
  | .external, .w16 => toInternal16 P 0

/-- The bytes that a working value puts into the output stream (R37, R96). -/
def bytesOut (P : Params) (w : Width) (v : Int) : List Byte :=
  let y := fromInternal16 P v
  match w, P.sample16Order with
  | .w8, _ => [fromInternal8 P v]
  | .w16, .little => [y.extractLsb' 0 8, y.extractLsb' 8 8]
  | .w16, .big => [y.extractLsb' 8 8, y.extractLsb' 0 8]

/-- EncodeBlock of bytes that hold the samples `s0` and `s1` and then `rest`: one byte, and then those of `rest` (R95). -/
def EncodesPair (P : Params) (w : Width) (c : CodecState) (bytes rest : List Byte) (s0 s1 : Int) : Prop :=
  let e0 := encodeSample P c s0
  let e1 := encodeSample P e0.2 s1
  encodeBlock P w c bytes = (pack e0.1 e1.1 :: (encodeBlock P w e1.2 rest).1, (encodeBlock P w e1.2 rest).2)

/-- STATUS.CTL as R19 numbers the controller's states. -/
def ctlNumber : Ctl → Nat
  | .idle => 0
  | .ready => 1
  | .running _ => 2
  | .done => 3
  | .failed => 4

/-- STATUS.ERR as R23 numbers the errors. -/
def errNumber : Err → Nat
  | .noError => 0
  | .alloc => 1
  | .io => 2

/-- A row of R89's table that changes CTL or PHASE, from `s` to `t`, on the event `e` (`none`: the block moves on its own). The
row for a short read is that of the other reading of I4; under it a block that is read in full is the only one to convert. -/
inductive TableRow (s t : State) : Option Event → Prop
  | openSucceeds (w : Word) (h : op w = 1) (m : rowMatches w = true) (n : s.isRunning = false) (r : t.ctl = .ready)
      (e : t.err = .noError) : TableRow s t (some (.regWrite 32 s.params.base w))
  | openFails (w : Word) (h : op w = 1) (m : rowMatches w = true) (a : s.params.allocMayFail = true) (n : s.isRunning = false)
      (r : t.ctl = .failed) (e : t.err = .alloc) : TableRow s t (some (.regWrite 32 s.params.base w))
  | run (w : Word) (h : op w = 7) (m : rowMatches w = true) (n : s.ctl = .ready) (r : t.ctl = .running .readWait) :
      TableRow s t (some (.regWrite 32 s.params.base w))
  | endOfInput (n : s.ctl = .running .readWait) (r : t.ctl = .done) : TableRow s t (some (.readAnswer (.ok [])))
  | blockRead (b : List Byte) (h : b ≠ []) (l : b.length ≤ reqBytes s)
      (p : s.params.shortReadIsError = true → b.length = reqBytes s) (n : s.ctl = .running .readWait)
      (r : t.ctl = .running .process) : TableRow s t (some (.readAnswer (.ok b)))
  | readFails (n : s.ctl = .running .readWait) (r : t.ctl = .failed) (e : t.err = .io) :
      TableRow s t (some (.readAnswer .fail))
  | shortReadFails (b : List Byte) (h : b ≠ []) (l : b.length < reqBytes s) (p : s.params.shortReadIsError = true)
      (n : s.ctl = .running .readWait) (r : t.ctl = .failed) (e : t.err = .io) : TableRow s t (some (.readAnswer (.ok b)))
  | converted (e : Option Event) (h : e = none ∨ e = some .blockTurn) (n : s.ctl = .running .process)
      (o : (convertBlock s.params s.cfgDir s.cfgWidth s.codec s.buf).1 ≠ []) (r : t.ctl = .running .writeWait) :
      TableRow s t e
  | convertedEmpty (e : Option Event) (h : e = none ∨ e = some .blockTurn) (n : s.ctl = .running .process)
      (o : (convertBlock s.params s.cfgDir s.cfgWidth s.codec s.buf).1 = []) (r : t.ctl = .running .readWait) :
      TableRow s t e
  | blockWritten (n : s.ctl = .running .writeWait) (r : t.ctl = .running .readWait) :
      TableRow s t (some (.writeAnswer .ok))
  | writeFails (n : s.ctl = .running .writeWait) (r : t.ctl = .failed) (e : t.err = .io) :
      TableRow s t (some (.writeAnswer .fail))
  | reset (r : t.ctl = .idle) : TableRow s t (some .reset)

/-- The event is a write to CMD of a word with an OP in lo..hi that matches its row of R48. -/
def writesOp (s : State) (lo hi : Nat) : Prop :=
  ∃ w, s.inputs.head? = some (.regWrite 32 s.params.base w) ∧ lo ≤ op w ∧ op w ≤ hi ∧ rowMatches w = true

/-- The block converts the block in BUF: PHASE = PROCESS, and no event or its own turn comes next. -/
def converts (s : State) : Prop :=
  s.ctl = .running .process ∧ (s.inputs.head? = none ∨ s.inputs.head? = some .blockTurn)

/-- The host answers the outstanding StreamRead. -/
def takesRead (s : State) : Prop := s.ctl = .running .readWait ∧ ∃ a, s.inputs.head? = some (.readAnswer a)

/-- The state without what BUF holds while no block is in it. -/
def forgetBuf (s : State) : State :=
  match s.ctl with
  | .running .process => s
  | .running .writeWait => s
  | .running .readWait => { s with buf := [] }
  | .idle => { s with buf := [] }
  | .ready => { s with buf := [] }
  | .done => { s with buf := [] }
  | .failed => { s with buf := [] }

/-- Two outcomes that differ at most in what BUF holds while no block is in it. -/
def SameButBuf : Host.Outcome State Fault Refusal → Host.Outcome State Fault Refusal → Prop
  | .next s, .next t => forgetBuf s = forgetBuf t
  | .fault a, .fault b => a = b
  | .refused a, .refused b => a = b
  | .next _, .fault _ => False
  | .next _, .refused _ => False
  | .fault _, .next _ => False
  | .fault _, .refused _ => False
  | .refused _, .next _ => False
  | .refused _, .fault _ => False

end Sys2Proof.Claims

open Sys2Proof Sys2Proof.Machine Sys2Proof.Claims

/-! ## Encoding and refusals -/

/-- Decoding and encoding are inverse: a word decodes to a command exactly when it is the command's word (R46, R48, R52). -/
def Obligations.DecodeExactlyEncode : Prop :=
  ∀ (w : Word) (i : Instr), decode w = .ok i ↔ w = encode i

/-- R48: a word selects a mnemonic exactly when its bits under the row's mask match; a word with a valid OP that matches no row
is refused, and no part of it is executed. -/
def Obligations.MaskTableSelects : Prop :=
  (∀ w : Word,
    ((∃ d v, decode w = .ok (.openStream d v)) ↔ w &&& 0xF700FFFF = 0x10000000) ∧
    (decode w = .ok .init ↔ w &&& 0xFFFFFFFF = 0x20000000) ∧
    ((∃ imm, decode w = .ok (.enc imm)) ↔ w &&& 0xFFFF0000 = 0x30000000) ∧
    ((∃ code, decode w = .ok (.dec code)) ↔ w &&& 0xFFFFFFF0 = 0x40000000) ∧
    ((∃ imm, decode w = .ok (.nin imm)) ↔ w &&& 0xFFFF0000 = 0x50000000) ∧
    ((∃ imm, decode w = .ok (.nout imm)) ↔ w &&& 0xFFFF0000 = 0x60000000) ∧
    (decode w = .ok .run ↔ w &&& 0xFFFFFFFF = 0x70000000)) ∧
  (∀ (s : State) (w : Word), s.params.valid = true → 1 ≤ op w → op w ≤ 7 → rowMatches w = false →
    step (s.commanded w) = .next { s with ill := true })

/-- R51: a refused word sets ILL and changes nothing else; a word that is not refused is executed and leaves ILL as it was. -/
def Obligations.RefusedWordsOnlySetIll : Prop :=
  ∀ (s : State) (w : Word), s.params.valid = true →
    (refused s w = true → step (s.commanded w) = .next { s with ill := true }) ∧
    (refused s w = false → ∃ t, step (s.commanded w) = .next t ∧ t.ill = s.ill)

/-- The reason of a refusal is the first of BUSY, BAD_OP, RESERVED_BITS, OPERAND_RANGE, RUN_NOT_READY that applies (R105 point 1,
which the model takes over the wording of R50: log 26), with the codes 1 to 5 (R100). -/
def Obligations.FirstRefusalReason : Prop :=
  (∀ (s : State) (w : Word), refuseReason s w =
    if s.isRunning = true then some .busy
    else if reservedOp w = true then some .badOp
    else if rowMatches w = false then some .reservedBits
    else if rangeBroken s w = true then some .operandRange
    else if runNotReady s w = true then some .runNotReady
    else none) ∧
  [RefuseReason.busy, .badOp, .reservedBits, .operandRange, .runNotReady].map RefuseReason.code = [1, 2, 3, 4, 5]

/-- Words written out from the encodings of R46 to R48 and the examples of R58 decode to the commands they stand for. -/
def Obligations.SampleWordsDecode : Prop :=
  decode 0b0001_0_000_00010000_0000000000000000 = .ok (.openStream .encode 16) ∧
  decode 0b0001_1_000_11111111_0000000000000000 = .ok (.openStream .decode 255) ∧
  decode 0b0010_0_000_00000000_0000000000000000 = .ok .init ∧
  decode 0b0011_0_000_00000000_1111111100000000 = .ok (.enc 0xFF00) ∧
  decode 0b0100_0_000_00000000_0000000000000111 = .ok (.dec 7) ∧
  decode 0b0101_0_000_00000000_1111000000000000 = .ok (.nin 0xF000) ∧
  decode 0b0110_0_000_00000000_0000011111111111 = .ok (.nout 0x07FF) ∧
  decode 0b0111_0_000_00000000_0000000000000000 = .ok .run

/-- A step runs the decoded command: where the host's next event is a 32-bit write to CMD of a word that decodes to `i`, the step
is `exec i` on the state with that event taken off; and that is what `withFetchWord` brings about. (That the host's acts are a queue
is the model's choice, logs 1 and 2.) -/
def Obligations.StepRunsDecodedCommand : Prop :=
  (∀ (s : State) (w : Word) (i : Instr) (rest : List Event), s.params.valid = true →
    s.inputs = .regWrite 32 s.params.base w :: rest → decode w = .ok i →
    step s = exec i { s with inputs := rest }) ∧
  (∀ (s : State) (w : Word) (i : Instr), s.params.valid = true → decode w = .ok i →
    step (s.withFetchWord 32 w.toNat) = exec i s)

/-! ## Each opcode's word, from the write to CMD to the state it leaves -/

/-- R69: a word with OP = 2 does the codec's init when every other bit is 0 and the block is not RUNNING; it is refused
otherwise. -/
def Obligations.InitWord : Prop :=
  ∀ (s : State) (w : Word), s.params.valid = true → op w = 2 →
    step (s.commanded w) = .next
      (if s.isRunning = false ∧ w.extractLsb' 0 28 = 0 then
        { s with pred := 0, idx := BitVec.ofNat 6 s.params.initialIndex }
       else { s with ill := true })

/-- R70: a word with OP = 3 encodes s = sext_16(IMM) when bits 27:16 are 0, s lies in −2048..2047 and the block is not RUNNING:
PRED and IDX as Encode leaves them, RESULT the code, zero-extended; it is refused otherwise. -/
def Obligations.EncWord : Prop :=
  ∀ (s : State) (w : Word), s.params.valid = true → op w = 3 →
    step (s.commanded w) = .next
      (if s.isRunning = false ∧ w.extractLsb' 16 12 = 0 ∧ -2048 ≤ simm w ∧ simm w ≤ 2047 then
        { s with
          pred := (encodeSample s.params { pred := s.pred, idx := s.idx } (simm w)).2.pred
          idx := (encodeSample s.params { pred := s.pred, idx := s.idx } (simm w)).2.idx
          result := BitVec.ofNat 32 (encodeSample s.params { pred := s.pred, idx := s.idx } (simm w)).1.toNat }
       else { s with ill := true })

/-- R71: a word with OP = 4 decodes the code IMM[3:0] when bits 27:4 are 0 and the block is not RUNNING: PRED and IDX as Decode
leaves them, RESULT the new PRED, sign-extended; it is refused otherwise. -/
def Obligations.DecWord : Prop :=
  ∀ (s : State) (w : Word), s.params.valid = true → op w = 4 →
    step (s.commanded w) = .next
      (if s.isRunning = false ∧ w.extractLsb' 4 24 = 0 then
        { s with
          pred := (decodeCode s.params { pred := s.pred, idx := s.idx } (w.extractLsb' 0 4)).2.pred
          idx := (decodeCode s.params { pred := s.pred, idx := s.idx } (w.extractLsb' 0 4)).2.idx
          result := (decodeCode s.params { pred := s.pred, idx := s.idx } (w.extractLsb' 0 4)).2.pred.signExtend 32 }
       else { s with ill := true })

/-- R80: a word with OP = 5 normalizes IMM: at width 8 the byte IMM[7:0] by ToInternal8, where IMM[15:8] must be 0, at width 16
sext_16(IMM) by ToInternal16; bits 27:16 must be 0 and the block not RUNNING; it is refused otherwise. -/
def Obligations.NinWord : Prop :=
  ∀ (s : State) (w : Word), s.params.valid = true → op w = 5 →
    (s.cfgWidth = .w8 → step (s.commanded w) = .next
      (if s.isRunning = false ∧ w.extractLsb' 16 12 = 0 ∧ w.extractLsb' 8 8 = 0 then
        { s with result := BitVec.ofInt 32 (toInternal8 s.params (w.extractLsb' 0 8).toNat) }
       else { s with ill := true })) ∧
    (s.cfgWidth = .w16 → step (s.commanded w) = .next
      (if s.isRunning = false ∧ w.extractLsb' 16 12 = 0 then
        { s with result := BitVec.ofInt 32 (toInternal16 s.params (simm w)) }
       else { s with ill := true }))

/-- R81: a word with OP = 6 takes v = sext_16(IMM) to the external width: zero-extended at width 8, sign-extended at width 16;
bits 27:16 must be 0, v in −2048..2047 and the block not RUNNING; it is refused otherwise. -/
def Obligations.NoutWord : Prop :=
  ∀ (s : State) (w : Word), s.params.valid = true → op w = 6 →
    step (s.commanded w) = .next
      (if s.isRunning = false ∧ w.extractLsb' 16 12 = 0 ∧ -2048 ≤ simm w ∧ simm w ≤ 2047 then
        (match s.cfgWidth with
         | .w8 => { s with result := BitVec.ofNat 32 (fromInternal8 s.params (simm w)).toNat }
         | .w16 => { s with result := BitVec.ofInt 32 (fromInternal16 s.params (simm w)).toInt })
       else { s with ill := true })

/-- R90: a word with OP = 1 and bits 26:24 and 15:0 zero, written while the block is not RUNNING, sets direction, width, FALLBACK,
the codec's init values and ERR = NONE; CTL is READY where the buffer is allocated, FAILED with ERR = ALLOC where it is not.
It is refused otherwise. Where ALLOC_MAY_FAIL, the host's report decides, and a free value where it made none (the form of the report
is the model's choice, log 9). -/
def Obligations.OpenWord : Prop :=
  ∀ (s : State) (w : Word), s.params.valid = true → op w = 1 →
    let opened : State :=
      { s with
        cfgDir := if w.getLsbD 27 then .decode else .encode
        cfgWidth := if wid w = 8 then .w8 else if wid w = 16 then .w16 else s.params.defaultWidth
        fallback := decide (wid w ≠ 8 ∧ wid w ≠ 16)
        pred := 0
        idx := BitVec.ofNat 6 s.params.initialIndex
        err := .noError }
    (s.isRunning = true ∨ w.extractLsb' 24 3 ≠ 0 ∨ w.extractLsb' 0 16 ≠ 0 →
      step (s.commanded w) = .next { s with ill := true }) ∧
    (s.isRunning = false → w.extractLsb' 24 3 = 0 → w.extractLsb' 0 16 = 0 →
      (s.params.allocMayFail = false → step (s.commanded w) = .next { opened with ctl := .ready }) ∧
      (s.params.allocMayFail = true →
        (s.allocReport = some true →
          step (s.commanded w) = .next { opened with ctl := .ready, allocReport := none }) ∧
        (s.allocReport = some false →
          step (s.commanded w) = .next { opened with ctl := .failed, err := .alloc, allocReport := none }) ∧
        (s.allocReport = none →
          step (s.commanded w) = .next { opened with ctl := .ready, draws := s.draws + 1 } ∨
          step (s.commanded w) = .next { opened with ctl := .failed, err := .alloc, draws := s.draws + 1 })))

/-- A word with OP = 7 starts the stream when every other bit is 0 and CTL = READY: CTL = RUNNING in READ_WAIT, with a StreamRead
of the block request size outstanding; it is refused otherwise (R89, R93, R94). -/
def Obligations.RunWord : Prop :=
  ∀ (s : State) (w : Word), s.params.valid = true → op w = 7 →
    (s.ctl = .ready → w.extractLsb' 0 28 = 0 →
      step (s.commanded w) = .next { s with ctl := .running .readWait } ∧
      outstanding { s with ctl := .running .readWait } = some (.streamRead (reqBytes s))) ∧
    (s.ctl ≠ .ready ∨ w.extractLsb' 0 28 ≠ 0 → step (s.commanded w) = .next { s with ill := true })

/-! ## Each command completes, and this is all it changes -/

/-- INIT completes in every state but RUNNING: (PRED, IDX) = (0, INITIAL_INDEX), and nothing else changes (R69). -/
def Obligations.InitCompletes : Prop :=
  ∀ s : State, s.isRunning = false →
    exec .init s = .next { s with pred := 0, idx := BitVec.ofNat 6 s.params.initialIndex }

/-- ENC completes in every state but RUNNING on an operand s in −2048..2047: with the step size at the old IDX, the code is S = (s < PRED)
and M = QUANT(|s − PRED|, ss); RESULT is 8·S + M, PRED and IDX are those of UPDATE(code), and nothing else changes (R67, R70). -/
def Obligations.EncCompletes : Prop :=
  ∀ (s : State) (imm : BitVec 16), s.isRunning = false → -2048 ≤ imm.toInt → imm.toInt ≤ 2047 →
    let m := quant s.params (imm.toInt - s.pred.toInt).natAbs (stepSize s.params s.idx)
    let code : Nat := (if imm.toInt < s.pred.toInt then 8 else 0) + m.toNat
    let c := update s.params { pred := s.pred, idx := s.idx } (BitVec.ofNat 4 code)
    exec (.enc imm) s = .next { s with pred := c.pred, idx := c.idx, result := BitVec.ofNat 32 code }

/-- DEC completes in every state but RUNNING, on every code: PRED and IDX are those of UPDATE(code), RESULT is the new PRED
sign-extended, and nothing else changes (R68, R71). -/
def Obligations.DecCompletes : Prop :=
  ∀ (s : State) (code : Code), s.isRunning = false →
    let c := update s.params { pred := s.pred, idx := s.idx } code
    exec (.dec code) s = .next { s with pred := c.pred, idx := c.idx, result := c.pred.signExtend 32 }

/-- NIN completes in every state but RUNNING, at width 8 where IMM[15:8] = 0 and at width 16 on every IMM: RESULT is
(IMM[7:0] − BIAS8) × IN8_SCALE, or sext_16(IMM) ÷ IN16_DIV, and nothing else changes (R76, R77, R80). -/
def Obligations.NinCompletes : Prop :=
  ∀ (s : State) (imm : BitVec 16), s.isRunning = false →
    (s.cfgWidth = .w8 → imm.toNat < 256 →
      exec (.nin imm) s = .next { s with
        result := BitVec.ofInt 32 (((imm.toNat : Int) - s.params.bias8) * s.params.in8Scale) }) ∧
    (s.cfgWidth = .w16 →
      exec (.nin imm) s = .next { s with
        result := BitVec.ofInt 32 (divide s.params.divMode imm.toInt s.params.in16Div) })

/-- NOUT completes in every state but RUNNING on an operand v in −2048..2047: RESULT is (v ÷ OUT8_DIV + BIAS8) mod 256 at width 8,
and at width 16 the 16-bit pattern of v × OUT16_SCALE, sign-extended; nothing else changes (R78, R79, R81). -/
def Obligations.NoutCompletes : Prop :=
  ∀ (s : State) (imm : BitVec 16), s.isRunning = false → -2048 ≤ imm.toInt → imm.toInt ≤ 2047 →
    (s.cfgWidth = .w8 →
      exec (.nout imm) s = .next { s with
        result := BitVec.ofInt 32 ((divide s.params.divMode imm.toInt s.params.out8Div + s.params.bias8) % 256) }) ∧
    (s.cfgWidth = .w16 →
      exec (.nout imm) s = .next { s with
        result := BitVec.ofInt 32 (Int.bmod (imm.toInt * s.params.out16Scale) 65536) })

/-- OPEN completes in every state but RUNNING, on every direction and width, where the allocation cannot fail: CTL = READY with the
direction, the width or its fallback, the codec's init values and ERR = NONE; nothing else changes (R90, R91). -/
def Obligations.OpenCompletes : Prop :=
  ∀ (s : State) (dir : Dir) (v : BitVec 8), s.isRunning = false → s.params.allocMayFail = false →
    exec (.openStream dir v) s = .next { s with
      cfgDir := dir
      cfgWidth := if v = 8 then .w8 else if v = 16 then .w16 else s.params.defaultWidth
      fallback := decide (v ≠ 8 ∧ v ≠ 16)
      pred := 0
      idx := BitVec.ofNat 6 s.params.initialIndex
      err := .noError
      ctl := .ready }

/-- RUN completes in READY: CTL = RUNNING, PHASE = READ_WAIT, and nothing else changes (R89, R93). -/
def Obligations.RunCompletes : Prop :=
  ∀ s : State, s.ctl = .ready → exec .run s = .next { s with ctl := .running .readWait }

/-- R116: every word written while RUNNING is refused as BUSY and the stream goes on; apart from the host's answers, nothing but reset ends
a running stream. -/
def Obligations.RunningRefusesCommands : Prop :=
  (∀ (s : State) (w : Word), s.params.valid = true → s.isRunning = true →
    refuseReason s w = some .busy ∧ step (s.commanded w) = .next { s with ill := true }) ∧
  (∀ s t : State, s.isRunning = true → step s = .next t → s.inputs.head? ≠ some .reset →
    (∀ a, s.inputs.head? ≠ some (.readAnswer a)) → (∀ a, s.inputs.head? ≠ some (.writeAnswer a)) →
    t.isRunning = true)

/-! ## The codec engine -/

/-- R65: the new PRED is the exact sum PRED + e, saturated to [−2048, 2047]; e is RECON(code[2:0], ss), negated where code[3] = 1 (R64),
and ss is the entry of STEP_TABLE at the old IDX wherever IDX is in the table (R61). -/
def Obligations.PredictorSaturates : Prop :=
  ∀ (P : Params) (c : CodecState) (code : Code) (ss : Nat),
    (P.stepTable[c.idx.toNat]? = some ss → stepSize P c.idx = ss) ∧
    (code.getLsbD 3 = false → delta P code ss = (recon P (code.extractLsb' 0 3) ss : Int)) ∧
    (code.getLsbD 3 = true → delta P code ss = -(recon P (code.extractLsb' 0 3) ss : Int)) ∧
    (let p := c.pred.toInt + delta P code (stepSize P c.idx)
     (update P c code).pred.toInt = if p > 2047 then 2047 else if p < -2048 then -2048 else p)

/-- R66: the new IDX is IDX + ADAPT_TABLE[code[2:0]], clamped to [0, TABLE_SIZE − 1]; the sign bit plays no part. -/
def Obligations.IndexAdapts : Prop :=
  ∀ (P : Params) (c : CodecState) (code : Code), P.valid = true →
    (let x := (c.idx.toNat : Int) + P.adaptTable[(code.extractLsb' 0 3).toFin]
     ((update P c code).idx.toNat : Int) =
       if x < 0 then 0 else if x > (P.stepTable.length : Int) - 1 then (P.stepTable.length : Int) - 1 else x) ∧
    (∀ code' : Code, code'.extractLsb' 0 3 = code.extractLsb' 0 3 → (update P c code').idx = (update P c code).idx)

/-- The quantizer's levels (R62): the three bits by successive approximation, which is QUANT where the parameter says so; 7 from ss + (ss >> 1) + (ss >> 2) on; for a step size that is a multiple of 8, k on the k-th
quarter step; never lower for a larger |delta|. -/
def Obligations.QuantizerLevels : Prop :=
  (∀ a ss : Nat, 1 ≤ ss → ss + ss / 2 + ss / 4 ≤ a → voxQuant a ss = 7) ∧
  (∀ j k a : Nat, 1 ≤ j → k ≤ 6 → 2 * j * k ≤ a → a < 2 * j * (k + 1) → (voxQuant a (8 * j)).toNat = k) ∧
  (∀ a b ss : Nat, 1 ≤ ss → a ≤ b → (voxQuant a ss).toNat ≤ (voxQuant b ss).toNat) ∧
  (∀ a ss : Nat,
    let r1 := if a ≥ ss then a - ss else a
    let r2 := if r1 ≥ ss / 2 then r1 - ss / 2 else r1
    (voxQuant a ss).getLsbD 2 = decide (a ≥ ss) ∧ (voxQuant a ss).getLsbD 1 = decide (r1 ≥ ss / 2) ∧
    (voxQuant a ss).getLsbD 0 = decide (r2 ≥ ss / 4)) ∧
  (∀ (P : Params) (a ss : Nat), P.quantizer = .successive → quant P a ss = voxQuant a ss)

/-- The reconstruction (R63, I2): the bit sum, which is RECON where the parameter says so; at most ss + (ss >> 1) + (ss >> 2) + (ss >> 3), for every pair non-decreasing in the level, and for a
step size that is a multiple of 8 the midpoint (2m + 1)·ss/8 of the level's interval. -/
def Obligations.ReconstructionBounds : Prop :=
  (∀ (m : BitVec 3) (ss : Nat), voxRecon m ss ≤ ss + ss / 2 + ss / 4 + ss / 8) ∧
  (∀ (P : Params) (m m' : BitVec 3) (ss : Nat), m.toNat ≤ m'.toNat → recon P m ss ≤ recon P m' ss) ∧
  (∀ (m : BitVec 3) (j : Nat), voxRecon m (8 * j) = (2 * m.toNat + 1) * j) ∧
  (∀ (m : BitVec 3) (ss : Nat), voxRecon m ss = ss / 8 + (if 4 ≤ m.toNat then ss else 0) +
    (if 2 ≤ m.toNat % 4 then ss / 2 else 0) + (if m.toNat % 2 = 1 then ss / 4 else 0)) ∧
  (∀ (P : Params) (m : BitVec 3) (ss : Nat), P.reconstruction = .bitSum → recon P m ss = voxRecon m ss)

/-- R67: Encode(s) emits S = 1 exactly when d = s − PRED is negative, and M = QUANT(|d|, ss) with ss at the old IDX, and leaves the
state of UPDATE(code). R67 takes an s in −2048..2047; that the same holds of any other integer, exact and with no clamp, is the model's
choice (log 25). -/
def Obligations.EncodeEmitsSignAndLevel : Prop :=
  ∀ (P : Params) (c : CodecState) (x : Int),
    ((encodeSample P c x).1.getLsbD 3 = true ↔ x - c.pred.toInt < 0) ∧
    (encodeSample P c x).1.extractLsb' 0 3 = quant P (x - c.pred.toInt).natAbs (stepSize P c.idx) ∧
    (encodeSample P c x).2 = update P c (encodeSample P c x).1

/-- R72: an encoder and a decoder from the same state stay in the same state after each step k of a code sequence, and the decoder's
k-th output is the encoder's PRED after step k. -/
def Obligations.EncoderDecoderAgree : Prop :=
  ∀ (P : Params) (c : CodecState) (samples : List Int) (k : Nat), k ≤ samples.length →
    (decodeAll P c ((encodeAll P c samples).1.take k)).2 = (encodeAll P c (samples.take k)).2 ∧
    (0 < k → (decodeAll P c (encodeAll P c samples).1).1[k - 1]? =
      some (encodeAll P c (samples.take k)).2.pred.toInt)

/-- The corner cases of codes in VOX-DEFAULT: a zero delta encodes to code 0; code 0 moves PRED up and code 8 down by ss >> 3, short of
the clamp; no code leaves PRED unchanged but at a clamp bound; the bounds hold PRED under codes 7 and 15, and the table's ends hold IDX
(R70, R71). -/
def Obligations.CodeCornerCases : Prop :=
  ∀ (c : CodecState) (code : Code), c.idx.toNat < 49 →
    let P := Params.voxDefault
    let e : Int := (stepSize P c.idx : Int) / 8
    encodeCode P c c.pred.toInt = 0 ∧
    (update P c 0).pred.toInt = min (c.pred.toInt + e) 2047 ∧
    (update P c 8).pred.toInt = max (c.pred.toInt - e) (-2048) ∧
    ((update P c code).pred = c.pred → c.pred.toInt = 2047 ∨ c.pred.toInt = -2048) ∧
    (c.pred.toInt = 2047 → (update P c 7).pred.toInt = 2047) ∧
    (c.pred.toInt = -2048 → (update P c 15).pred.toInt = -2048) ∧
    (c.idx = 48 → 4 ≤ (code.extractLsb' 0 3).toNat → (update P c code).idx = 48) ∧
    (c.idx = 0 → (code.extractLsb' 0 3).toNat ≤ 3 → (update P c code).idx = 0)

/-- After any sequence of Encode and Decode calls from a valid state, IDX lies in the table and PRED in [−2048, 2047] (R73). -/
def Obligations.CallsKeepBounds : Prop :=
  ∀ (P : Params) (c : CodecState) (calls : List (Int ⊕ Code)), P.valid = true → c.idx.toNat < P.stepTable.length →
    (afterCalls P c calls).idx.toNat < P.stepTable.length ∧
    -2048 ≤ (afterCalls P c calls).pred.toInt ∧ (afterCalls P c calls).pred.toInt ≤ 2047

/-- R74: in VOX-DEFAULT, n codes of level 7 raise IDX from 0 to min(8n, 48); n codes of level at most 3 lower it by n, down to 0. -/
def Obligations.IndexSaturates : Prop :=
  (∀ (c : CodecState) (codes : List Code), c.idx = 0 → (∀ x ∈ codes, x.extractLsb' 0 3 = 7) →
    (decodeAll Params.voxDefault c codes).2.idx.toNat = min (8 * codes.length) 48) ∧
  (∀ (c : CodecState) (codes : List Code), c.idx.toNat ≤ 48 → (∀ x ∈ codes, (x.extractLsb' 0 3).toNat ≤ 3) →
    (decodeAll Params.voxDefault c codes).2.idx.toNat = c.idx.toNat - codes.length)

/-- In VOX-DEFAULT, while the quantizer is not saturated, ENC leaves a PRED within (ss >> 3) + 2 of the sample, before the clamp
and after it (R75). -/
def Obligations.UnsaturatedErrorBound : Prop :=
  ∀ (s : State) (imm : BitVec 16), s.params = Params.voxDefault → s.isRunning = false → s.idx.toNat < 49 →
    -2048 ≤ imm.toInt → imm.toInt ≤ 2047 →
    let ss := stepSize s.params s.idx
    (imm.toInt - s.pred.toInt).natAbs ≤ voxRecon 7 ss + ss / 8 →
    ∃ t, exec (.enc imm) s = .next t ∧
      (imm.toInt - (s.pred.toInt + delta s.params (t.result.extractLsb' 0 4) ss)).natAbs ≤ ss / 8 + 2 ∧
      (imm.toInt - t.pred.toInt).natAbs ≤ ss / 8 + 2

/-! ## The normalizer -/

/-- R76 and R77: an 8-bit sample u gives (u − BIAS8) × IN8_SCALE and a 16-bit sample x gives x ÷ IN16_DIV, truncated toward zero; at
the defaults these are (u − 128) × 16 in [−2048, 2032] and x ÷ 16 in [−2048, 2047]. -/
def Obligations.InwardNormalization : Prop :=
  (∀ (P : Params) (u x : Int), P.divMode = .truncate → 1 ≤ P.in16Div →
    let d : Int := P.in16Div
    let v := toInternal16 P x
    toInternal8 P u = (u - P.bias8) * P.in8Scale ∧
    (0 ≤ x → d * v ≤ x ∧ x < d * v + d) ∧ (x ≤ 0 → x ≤ d * v ∧ d * v - d < x)) ∧
  (∀ u : Int, 0 ≤ u → u ≤ 255 →
    toInternal8 Params.voxDefault u = (u - 128) * 16 ∧
    -2048 ≤ toInternal8 Params.voxDefault u ∧ toInternal8 Params.voxDefault u ≤ 2032) ∧
  (∀ x : Int, -32768 ≤ x → x ≤ 32767 →
    let v := toInternal16 Params.voxDefault x
    (-2048 : Int) ≤ v ∧ v ≤ 2047 ∧ (0 ≤ x → 16 * v ≤ x ∧ x < 16 * v + 16) ∧ (x ≤ 0 → x ≤ 16 * v ∧ 16 * v - 16 < x))

/-- R78 and R79: the 8-bit output is the sum reduced mod 256, for every parameter set; at the defaults it is (v ÷ 32) + 128, truncated
toward zero and in [64, 191], and the 16-bit output is v × 16 exactly. -/
def Obligations.OutwardNormalization : Prop :=
  (∀ (P : Params) (v : Int), P.divMode = .truncate →
    ((fromInternal8 P v).toNat : Int) = (Int.tdiv v P.out8Div + P.bias8) % 256 ∧
    ((fromInternal16 P v).toNat : Int) = (v * P.out16Scale) % 65536) ∧
  (∀ v : Int, -2048 ≤ v → v ≤ 2047 →
    (let y : Int := (fromInternal8 Params.voxDefault v).toNat
     64 ≤ y ∧ y ≤ 191 ∧ (0 ≤ v → 32 * (y - 128) ≤ v ∧ v < 32 * (y - 128) + 32) ∧
     (v ≤ 0 → v ≤ 32 * (y - 128) ∧ 32 * (y - 128) - 32 < v)) ∧
    (fromInternal16 Params.voxDefault v).toInt = v * 16)

/-- R83: a 16-bit round trip gives (x ÷ 16) × 16, which is x for a multiple of 16 and otherwise 1 to 15 nearer to zero; an 8-bit round
trip gives ((u − 128) ÷ 2) + 128. -/
def Obligations.NormalizerRoundTrips : Prop :=
  (∀ x : Int, -32768 ≤ x → x ≤ 32767 →
    let y := (fromInternal16 Params.voxDefault (toInternal16 Params.voxDefault x)).toInt
    y = Int.tdiv x 16 * 16 ∧ (16 ∣ x → y = x) ∧
    (¬ 16 ∣ x → 1 ≤ (x - y).natAbs ∧ (x - y).natAbs ≤ 15 ∧ y.natAbs < x.natAbs)) ∧
  (∀ u : Int, 0 ≤ u → u ≤ 255 →
    ((fromInternal8 Params.voxDefault (toInternal8 Params.voxDefault u)).toNat : Int) = Int.tdiv (u - 128) 2 + 128)

/-- The RESULT of a NIN that is executed at the defaults is always an operand that ENC accepts: the two in sequence set no ILL (R80). -/
def Obligations.NinResultFeedsEnc : Prop :=
  ∀ (s : State) (imm : BitVec 16), s.params = Params.voxDefault → s.isRunning = false → s.ill = false →
    (s.cfgWidth = .w8 → imm.toNat < 256) →
    ∃ t u, exec (.nin imm) s = .next t ∧ exec (.enc (t.result.setWidth 16)) t = .next u ∧ u.ill = false

/-! ## The packer and the pipeline -/

/-- R84 and R85: the first code is byte[7:4] and the second byte[3:0]; unpacking gives them back in that order, the order in which
the pipeline decodes them, and every byte is the packing of its two codes. -/
def Obligations.PackUnpack : Prop :=
  (∀ a b : Code, (pack a b).toNat = 16 * a.toNat + b.toNat ∧ unpack (pack a b) = (a, b)) ∧
  (∀ x : Byte, unpack x = (x.extractLsb' 4 4, x.extractLsb' 0 4) ∧ pack (unpack x).1 (unpack x).2 = x) ∧
  (∀ (x : Byte) (rest : List Byte), unpackAll (x :: rest) = (unpack x).1 :: (unpack x).2 :: unpackAll rest)

/-- R87: an encode block of k samples gives ⌈k/2⌉ bytes, a decode block of n bytes 2n samples; a stream of N samples, whose blocks
before the last hold an even number of whole samples, encodes to ⌈N/2⌉ bytes, and decoding those gives 2·⌈N/2⌉ samples. -/
def Obligations.BlockCounts : Prop :=
  (∀ (P : Params) (w : Width) (c : CodecState) (bytes : List Byte),
    (encodeBlock P w c bytes).1.length = (bytes.length / widthBytes w + 1) / 2 ∧
    (decodeBlock P w c bytes).1.length = 2 * bytes.length * widthBytes w) ∧
  (∀ (P : Params) (w : Width) (c d : CodecState) (full : List (List Byte)) (last : List Byte) (n : Nat),
    (∀ b ∈ full, b.length % (2 * widthBytes w) = 0) → n = (full.flatten ++ last).length / widthBytes w →
    (convertBlocks P .encode w c (full ++ [last])).1.length = (n + 1) / 2 ∧
    (decodeBlock P w d (convertBlocks P .encode w c (full ++ [last])).1).1.length = 2 * ((n + 1) / 2) * widthBytes w)

/-- Where a block has an odd number of samples, Encode of the padding sample is called once more after the last one; its code is the low
nibble of the last byte, beside the last sample's code, and the state it leaves is the block's. A block with an even count gets no padding
(R86). The padding sample is the working value 0 (R86); under PAD_DOMAIN = external it is the external value 0, normalized (I5, log 18). -/
def Obligations.OddBlockPadding : Prop :=
  ∀ (P : Params) (w : Width) (c : CodecState) (bytes : List Byte),
    let samples := (externalSamples P w bytes).map (toInternal P w)
    let codes := (encodeAll P c samples).1
    let c1 := (encodeAll P c samples).2
    let z := padding P w
    (P.padDomain = .working → z = 0) ∧
    (P.padDomain = .external → z = match w with
      | .w8 => toInternal8 P 0
      | .w16 => toInternal16 P 0) ∧
    (samples.length % 2 = 1 →
      encodeBlock P w c bytes = (packAll (codes ++ [encodeCode P c1 z]), update P c1 (encodeCode P c1 z)) ∧
      ∃ a, codes.getLast? = some a ∧ (encodeBlock P w c bytes).1.getLast? = some (pack a (encodeCode P c1 z))) ∧
    (samples.length % 2 = 0 → encodeBlock P w c bytes = (packAll codes, c1))

/-- R94: the size of each read request. -/
def Obligations.RequestSizes : Prop :=
  ∀ s : State, s.ctl = .running .readWait →
    outstanding s = some (.streamRead
      (match s.cfgDir, s.cfgWidth with
       | .encode, .w8 => s.params.blockSamples
       | .encode, .w16 => 2 * s.params.blockSamples
       | .decode, _ => s.params.blockSamples / 2))

/-- What each read answer does in READ_WAIT, and nothing else changes: `fail` and, under the other reading of I4, a short read are an
IOError; a zero-length read ends the stream; any other is the block to convert (R89, R97, R102). That the bytes of a failing short read
count as consumed is the model's choice (log 18), and that an answer which is not asked for or is too long is a fault (log 10). -/
def Obligations.ReadAnswerEffects : Prop :=
  ∀ (s : State) (rest : List Event) (a : ReadAnswer), s.params.valid = true → s.inputs = .readAnswer a :: rest →
    (s.ctl ≠ .running .readWait → step s = .fault .unsolicitedAnswer) ∧
    (s.ctl = .running .readWait →
      (a = .fail → step s = .next { s with inputs := rest, ctl := .failed, err := .io }) ∧
      (a = .ok [] → step s = .next { s with inputs := rest, ctl := .done }) ∧
      (∀ b, a = .ok b → b ≠ [] →
        (reqBytes s < b.length → step s = .fault .overlongAnswer) ∧
        (b.length = reqBytes s ∨ (b.length < reqBytes s ∧ s.params.shortReadIsError = false) →
          step s = .next { s with
            inputs := rest, consumed := s.consumed ++ b, buf := b, ctl := .running .process }) ∧
        (b.length < reqBytes s ∧ s.params.shortReadIsError = true →
          step s = .next { s with
            inputs := rest, consumed := s.consumed ++ b, ctl := .failed, err := .io })))

/-- What each write answer does in WRITE_WAIT, and nothing else changes: after `ok` every byte of the block is appended and the next
read is issued; after `fail` some prefix is appended, from none to all (log 8), and the stream has failed (R36, R89, R97, R102). An
answer that is not asked for is a fault (the model's choice, log 10). -/
def Obligations.WriteAnswerEffects : Prop :=
  ∀ (s : State) (rest : List Event) (a : WriteAnswer), s.params.valid = true → s.inputs = .writeAnswer a :: rest →
    (s.ctl ≠ .running .writeWait → step s = .fault .unsolicitedAnswer) ∧
    (s.ctl = .running .writeWait →
      (a = .ok → step s = .next { s with
        inputs := rest, output := s.output ++ s.buf, ctl := .running .readWait }) ∧
      (a = .fail → ∃ written, written <+: s.buf ∧ step s = .next { s with
        inputs := rest, output := s.output ++ written, ctl := .failed, err := .io, draws := s.draws + 1 }))

/-- CTL and PHASE change only as the table of R89 says (with the row that I4's other reading adds). -/
def Obligations.ControllerFollowsTable : Prop :=
  ∀ s t : State, step s = .next t → t.ctl = s.ctl ∨ TableRow s t s.inputs.head?

/-- R99: a decoded stream does not depend on how its bytes are split into answers; an encoded one does not, where every answer but the
last holds a whole, even number of samples; at width 16 an odd last byte is lost. -/
def Obligations.BlockBoundaryFacts : Prop :=
  (∀ (P : Params) (w : Width) (c : CodecState) (blocks : List (List Byte)),
    convertBlocks P .decode w c blocks = decodeBlock P w c blocks.flatten) ∧
  (∀ (P : Params) (w : Width) (c : CodecState) (blocks : List (List Byte)) (last : List Byte),
    (∀ b ∈ blocks, b.length % (2 * widthBytes w) = 0) →
    convertBlocks P .encode w c (blocks ++ [last]) = encodeBlock P w c (blocks.flatten ++ last)) ∧
  (∀ (P : Params) (c : CodecState) (bytes : List Byte) (b : Byte), bytes.length % 2 = 0 →
    encodeBlock P .w16 c (bytes ++ [b]) = encodeBlock P .w16 c bytes)

/-- A whole stream, at the spec's reading of I4: from READY, with RUN written and the host then serving any blocks within the request size and a zero-length read,
the machine comes to DONE; the output is the blocks' conversions one after the other, the input consumed is exactly the blocks' bytes,
PRED and IDX are those after the last sample, and nothing else changes but BUF (R93, R98; the host's and the block's turns are events of
one queue, the model's choice, log 1). -/
def Obligations.StreamRunsToDone : Prop :=
  ∀ (s : State) (blocks : List (List Byte)) (rest : List Event), s.params.valid = true →
    s.params.shortReadIsError = false → s.ctl = .ready →
    (∀ b ∈ blocks, b ≠ [] ∧ b.length ≤ reqBytes s) →
    s.inputs = .regWrite 32 s.params.base 0x70000000 :: (streamEvents s.cfgDir s.cfgWidth blocks ++ rest) →
    ∃ held, Host.Core.run Sys2Proof.core (1 + (streamEvents s.cfgDir s.cfgWidth blocks).length) s = .next { s with
      inputs := rest
      ctl := .done
      consumed := s.consumed ++ blocks.flatten
      output := s.output ++ (convertBlocks s.params s.cfgDir s.cfgWidth s.codec blocks).1
      pred := (convertBlocks s.params s.cfgDir s.cfgWidth s.codec blocks).2.pred
      idx := (convertBlocks s.params s.cfgDir s.cfgWidth s.codec blocks).2.idx
      buf := held }

/-- Decoding an encoded block from the state the encoder started in ends in the state the encoder ended in, padding code and all
(R72, R86). -/
def Obligations.DecoderTracksEncodedBlock : Prop :=
  ∀ (P : Params) (w w' : Width) (c : CodecState) (bytes : List Byte),
    (decodeBlock P w' c (encodeBlock P w c bytes).1).2 = (encodeBlock P w c bytes).2

/-! ## Register accesses -/

/-- A register access is a bus error exactly when it breaks R34: a read that is not 32 bits wide at RESULT, STATUS or CODEC, a write
that is not 32 bits wide at CMD (R33, R34, R104). -/
def Obligations.BusErrorExactly : Prop :=
  (∀ (s : State) (width addr : Nat) (rest : List Event), s.params.valid = true →
    s.inputs = .regRead width addr :: rest →
    (step s = .fault .busError ↔
      ¬ (width = 32 ∧ (addr = s.params.base + 4 ∨ addr = s.params.base + 8 ∨ addr = s.params.base + 12)))) ∧
  (∀ (s : State) (width addr : Nat) (value : Word) (rest : List Event), s.params.valid = true →
    s.inputs = .regWrite width addr value :: rest →
    (step s = .fault .busError ↔ ¬ (width = 32 ∧ addr = s.params.base)))

/-- R27: a read of STATUS, in every state, returns the fields at their bits, 0 in every other bit, and has no side effect; after reset
it is 0. -/
def Obligations.StatusReads : Prop :=
  (∀ (s : State) (rest : List Event), s.params.valid = true → s.inputs = .regRead 32 (s.params.base + 8) :: rest →
    ∃ v : Word, step s = .next { s with inputs := rest, replies := s.replies ++ [v] } ∧
      (v.extractLsb' 0 3).toNat = ctlNumber s.ctl ∧ v.getLsbD 3 = false ∧
      (v.extractLsb' 4 2).toNat = errNumber s.err ∧ v.extractLsb' 6 2 = 0 ∧
      v.getLsbD 8 = s.fallback ∧ v.getLsbD 9 = s.ill ∧ v.extractLsb' 10 6 = 0 ∧
      v.getLsbD 16 = decide (s.cfgDir = .decode) ∧ v.getLsbD 17 = decide (s.cfgWidth = .w16) ∧
      v.extractLsb' 18 14 = 0) ∧
  statusWord State.reset = 0

/-- R28: outside RUNNING a read of CODEC returns PRED at bits 11:0 and IDX at bits 21:16, 0 in every other bit, with no side effect;
while RUNNING it returns some value and changes nothing else but the count of free values (the model's, log 7); after reset PRED is 0
and IDX INITIAL_INDEX. -/
def Obligations.CodecReads : Prop :=
  (∀ (s : State) (rest : List Event), s.params.valid = true → s.inputs = .regRead 32 (s.params.base + 12) :: rest →
    (s.isRunning = false → ∃ v : Word, step s = .next { s with inputs := rest, replies := s.replies ++ [v] } ∧
      v.extractLsb' 0 12 = s.pred ∧ v.extractLsb' 12 4 = 0 ∧ v.extractLsb' 16 6 = s.idx ∧ v.extractLsb' 22 10 = 0) ∧
    (s.isRunning = true → ∃ v : Word, step s = .next { s with
      inputs := rest, replies := s.replies ++ [v], draws := s.draws + 1 })) ∧
  State.reset.pred = 0 ∧ State.reset.idx = BitVec.ofNat 6 State.reset.params.initialIndex

/-- Outside RUNNING a read of RESULT returns it; while RUNNING it returns some value, and nothing else changes but the count of free
values (R30, R114; the count is the model's, log 7). -/
def Obligations.ResultReads : Prop :=
  ∀ (s : State) (rest : List Event), s.params.valid = true → s.inputs = .regRead 32 (s.params.base + 4) :: rest →
    (s.isRunning = false → step s = .next { s with inputs := rest, replies := s.replies ++ [s.result] }) ∧
    (s.isRunning = true → ∃ v : Word, step s = .next { s with
      inputs := rest, replies := s.replies ++ [v], draws := s.draws + 1 })

/-! ## Whole-machine rules -/

/-- R25: a refused command sets ILL, and reset, which clears it, is the only step that does. -/
def Obligations.IllIsSticky : Prop :=
  (∀ (s : State) (w : Word), s.params.valid = true → refused s w = true →
    ∃ t, step (s.commanded w) = .next t ∧ t.ill = true) ∧
  (∀ s t : State, step s = .next t → s.ill = true → s.inputs.head? ≠ some .reset → t.ill = true) ∧
  (∀ s t : State, step s = .next t → s.inputs.head? = some .reset → t.ill = false)

/-- What writes each register but CTL, apart from reset: CFG_WIDTH, CFG_DIR and FALLBACK only OPEN; RESULT only ENC, DEC, NIN and NOUT;
PRED and IDX only OPEN, INIT, ENC, DEC and the conversion of a block; ERR only OPEN and an answer that fails the stream, to IO; ILL only a
refused word (R14 to R18, R23 to R25). That BUF keeps its bytes at every step but the conversion of a block and a read answer is the
model's choice (log 6). -/
def Obligations.RegisterWriters : Prop :=
  ∀ s t : State, step s = .next t → s.inputs.head? ≠ some .reset →
    (t.cfgWidth ≠ s.cfgWidth ∨ t.cfgDir ≠ s.cfgDir ∨ t.fallback ≠ s.fallback → writesOp s 1 1) ∧
    (t.result ≠ s.result → writesOp s 3 6) ∧
    (t.pred ≠ s.pred ∨ t.idx ≠ s.idx → converts s ∨ writesOp s 1 4) ∧
    (t.err ≠ s.err → writesOp s 1 1 ∨ t.ctl = .failed ∧ t.err = .io ∧
      (takesRead s ∨ s.ctl = .running .writeWait ∧ s.inputs.head? = some (.writeAnswer .fail))) ∧
    (t.ill ≠ s.ill → ∃ w, s.inputs.head? = some (.regWrite 32 s.params.base w) ∧ refused s w = true ∧ t.ill = true) ∧
    (t.buf ≠ s.buf → converts s ∨ takesRead s)

/-- Every step keeps the machine's invariant: the parameters, IDX in the table, ERR and CTL in agreement, FALLBACK and the width, BUF's
bounds. -/
def Obligations.StepKeepsInvariant : Prop :=
  ∀ s t : State, Inv s → step s = .next t → Inv t

/-- The invariant holds after reset. -/
def Obligations.ResetSatisfiesInvariant : Prop := Inv State.reset

/-- R112: the value of every piece of state after reset, as the machine starts and after a reset of a running machine; a reset does not
touch the host's streams. (BUF is unspecified there, and nothing is said of it.) That the queue of events, a waiting allocation report,
the counter of draws and the record of reads (log 14) survive a reset, and that a write outstanding at it appends nothing, is the model's
own (log 20). -/
def Obligations.ResetValues : Prop :=
  (State.reset.pred = 0 ∧ State.reset.idx = BitVec.ofNat 6 State.reset.params.initialIndex ∧ State.reset.result = 0 ∧
    State.reset.cfgWidth = .w8 ∧ State.reset.cfgDir = .encode ∧ State.reset.ctl = .idle ∧
    State.reset.err = .noError ∧ State.reset.fallback = false ∧ State.reset.ill = false ∧
    statusWord State.reset = 0 ∧ codecWord State.reset = 0) ∧
  (∀ (s : State) (rest : List Event), s.params.valid = true → s.inputs = .reset :: rest →
    ∃ held, step s = .next { s with
      inputs := rest, pred := 0, idx := BitVec.ofNat 6 s.params.initialIndex, result := 0, cfgWidth := .w8
      cfgDir := .encode, ctl := .idle, err := .noError, fallback := false, ill := false, buf := held })

/-- The streams only grow and no step writes the parameters (R7, R31, R32, R36). That State holds the streams' bytes and a record of what
reads returned, which only grows too, is the model's choice (log 14), and so is that it holds the parameters (log 3). -/
def Obligations.StreamsOnlyGrow : Prop :=
  ∀ s t : State, step s = .next t →
    s.output <+: t.output ∧ s.consumed <+: t.consumed ∧ s.replies <+: t.replies ∧ t.params = s.params

/-- What BUF holds between blocks is never observable: two machines that differ in nothing else do, over any number of steps, the same,
up to what BUF holds between blocks (R26). -/
def Obligations.BufNeverObservable : Prop :=
  ∀ (n : Nat) (s t : State), forgetBuf s = forgetBuf t →
    SameButBuf (Host.Core.run Sys2Proof.core n s) (Host.Core.run Sys2Proof.core n t)

/-- Instances share no state: a step of one is its own step, and leaves the others as they are (R106; that they move one at a time is
the model's choice, log 16). -/
def Obligations.InstancesIndependent : Prop :=
  ∀ (n : Nat) (k : Fin n) (blocks after : Vector State n), stepAt k blocks = .next after →
    step blocks[k] = .next after[k] ∧ ∀ j : Fin n, j ≠ k → after[j] = blocks[j]

/-- A host that never answers leaves the block as it is for ever: with no event left and no block to convert, no number of steps changes
anything (R98, I13; that the block then stutters is the model's choice, log 1). -/
def Obligations.UnansweredRequestHangs : Prop :=
  ∀ (n : Nat) (s : State), s.params.valid = true → s.inputs = [] → s.ctl ≠ .running .process →
    Host.Core.run Sys2Proof.core n s = .next s

/-- The assembler: every word it emits decodes to a well-formed command; OPEN, ENC, DEC, NIN and NOUT are assembled exactly on their
ranges, each to one word whose operands are those written; INIT and RUN are their words; CONVERT is OPEN and then RUN, on OPEN's range
(R58, R59; the line's abstract form is the model's, log 19). -/
def Obligations.AssemblerEmitsCommands : Prop :=
  (∀ (line : AsmLine) (words : List Word), line.words = some words →
    ∀ w ∈ words, ∃ i, decode w = .ok i ∧ i.wellFormed = true) ∧
  (AsmLine.init.words = some [0x20000000] ∧ AsmLine.run.words = some [0x70000000]) ∧
  (∀ (dir : Dir) (x : Int),
    (0 ≤ x ∧ x ≤ 255 → ∃ w v, (AsmLine.openStream dir x).words = some [w] ∧
      (AsmLine.convert dir x).words = some [w, 0x70000000] ∧ decode w = .ok (.openStream dir v) ∧ (v.toNat : Int) = x) ∧
    (¬ (0 ≤ x ∧ x ≤ 255) → (AsmLine.openStream dir x).words = none ∧ (AsmLine.convert dir x).words = none)) ∧
  (∀ x : Int,
    (-2048 ≤ x ∧ x ≤ 2047 →
      (∃ w imm, (AsmLine.enc x).words = some [w] ∧ decode w = .ok (.enc imm) ∧ imm.toInt = x) ∧
      (∃ w imm, (AsmLine.nout x).words = some [w] ∧ decode w = .ok (.nout imm) ∧ imm.toInt = x)) ∧
    (¬ (-2048 ≤ x ∧ x ≤ 2047) → (AsmLine.enc x).words = none ∧ (AsmLine.nout x).words = none) ∧
    (0 ≤ x ∧ x ≤ 15 →
      ∃ w code, (AsmLine.dec x).words = some [w] ∧ decode w = .ok (.dec code) ∧ (code.toNat : Int) = x) ∧
    (¬ (0 ≤ x ∧ x ≤ 15) → (AsmLine.dec x).words = none) ∧
    (-32768 ≤ x ∧ x ≤ 65535 → ∃ w imm, (AsmLine.nin x).words = some [w] ∧ decode w = .ok (.nin imm) ∧
      (imm.toNat : Int) = x % 65536) ∧
    (¬ (-32768 ≤ x ∧ x ≤ 65535) → (AsmLine.nin x).words = none))

/-- The block's own move, over every state, whether no event is left or its turn comes: in PROCESS it converts BUF, PRED and IDX are those
after the block, the output goes to BUF for the StreamWrite, or, where it is empty, the next StreamRead is issued; in every other state it
waits (R93; the queue and the turns are the model's choice, log 1). The conversions are those of R95 and R96, for all parameters, by two
samples or one code byte at a time: which bytes are a sample and which byte of a 16-bit sample is its high one, the order of the calls, the
padding, the dropped odd byte, the bytes put out (for samples that leave −2048..2047 under other literals, log 25). The host's report on an allocation changes nothing but the model's record of it (log 9). -/
def Obligations.OwnMovesAndReports : Prop :=
  (∀ s u : State, s.params.valid = true →
    (s.inputs = [] ∧ u = s ∨ ∃ rest, s.inputs = .blockTurn :: rest ∧ u = { s with inputs := rest }) →
    let c : CodecState := { pred := s.pred, idx := s.idx }
    let r := match s.cfgDir with
      | .encode => encodeBlock s.params s.cfgWidth c s.buf
      | .decode => decodeBlock s.params s.cfgWidth c s.buf
    (s.ctl = .running .process → r.1 = [] →
      step s = .next { u with pred := r.2.pred, idx := r.2.idx, ctl := .running .readWait }) ∧
    (s.ctl = .running .process → r.1 ≠ [] →
      step s = .next { u with pred := r.2.pred, idx := r.2.idx, buf := r.1, ctl := .running .writeWait }) ∧
    (s.ctl ≠ .running .process → step s = .next u)) ∧
  (∀ (s : State) (ok : Bool) (rest : List Event), s.params.valid = true → s.inputs = .allocReport ok :: rest →
    step s = .next { s with inputs := rest, allocReport := some ok }) ∧
  (∀ (P : Params) (c : CodecState) (b0 b1 b2 b3 : Byte) (rest : List Byte),
    EncodesPair P .w8 c (b0 :: b1 :: rest) rest (sample8 P b0) (sample8 P b1) ∧
    EncodesPair P .w8 c [b0] [] (sample8 P b0) (padding P .w8) ∧
    EncodesPair P .w16 c (b0 :: b1 :: b2 :: b3 :: rest) rest (sample16 P b0 b1) (sample16 P b2 b3) ∧
    EncodesPair P .w16 c [b0, b1, b2] [] (sample16 P b0 b1) (padding P .w16) ∧
    EncodesPair P .w16 c [b0, b1] [] (sample16 P b0 b1) (padding P .w16) ∧
    encodeBlock P .w16 c [b0] = ([], c)) ∧
  (∀ (P : Params) (w : Width) (c : CodecState) (x : Byte) (rest : List Byte),
    encodeBlock P w c [] = ([], c) ∧ decodeBlock P w c [] = ([], c) ∧
    (let c1 := update P c (x.extractLsb' 4 4)
     let c2 := update P c1 (x.extractLsb' 0 4)
     decodeBlock P w c (x :: rest) = (bytesOut P w c1.pred.toInt ++ bytesOut P w c2.pred.toInt ++ (decodeBlock P w c2 rest).1,
       (decodeBlock P w c2 rest).2)))
end

