-- ==== Sys2Proof/Laws/Arith.lean ====
section
/-! SUPPORT. The integer operations of R9 and the fields they are stored in. -/

namespace Sys2Proof.Machine

theorem clamp_mem {lo hi : Int} (h : lo ≤ hi) (x : Int) : lo ≤ clamp x lo hi ∧ clamp x lo hi ≤ hi := by
  unfold clamp
  split
  · exact ⟨le_refl _, h⟩
  · split <;> omega

theorem clamp_of_mem {lo hi x : Int} (h1 : lo ≤ x) (h2 : x ≤ hi) : clamp x lo hi = x := by
  unfold clamp
  rw [if_neg (by omega), if_neg (by omega)]

/-- PRED holds any value of its range exactly (R14). -/
theorem toInt_ofInt_pred {x : Int} (h1 : -2048 ≤ x) (h2 : x ≤ 2047) : (BitVec.ofInt 12 x).toInt = x := by
  rw [BitVec.toInt_ofInt, Int.bmod_eq_of_le] <;> simp <;> omega

/-- IDX holds any value below 64 exactly (R15). -/
theorem toNat_ofInt_idx {x : Int} (h1 : 0 ≤ x) (h2 : x < 64) : (BitVec.ofInt 6 x).toNat = x.toNat := by
  rw [BitVec.toNat_ofInt, Int.emod_eq_of_lt h1 (by simpa using h2)]

/-- Every PRED lies in [PRED_MIN, PRED_MAX] (R14). -/
theorem pred_mem (p : BitVec 12) : -2048 ≤ p.toInt ∧ p.toInt ≤ 2047 := by
  have h1 := BitVec.le_toInt p
  have h2 := BitVec.toInt_lt (x := p)
  simp at h1 h2
  omega

/-- `÷` by a positive number truncates toward zero (R9). -/
theorem divide_truncate (a : Int) {b : Nat} (hb : 0 < b) :
    (divide .truncate a b * b).natAbs ≤ a.natAbs ∧ a.natAbs < (divide .truncate a b * b).natAbs + b := by
  have h := Nat.div_add_mod a.natAbs b
  have hm := Nat.mod_lt a.natAbs hb
  have e : (divide .truncate a b * b).natAbs = b * (a.natAbs / b) := by
    rw [divide, Int.natAbs_mul, Int.natAbs_tdiv, Int.natAbs_natCast, Nat.mul_comm]; rfl
  omega

end Sys2Proof.Machine
end

