-- ==== Sys2Proof/Laws/Codec.lean ====
section
/-! SUPPORT. The parameters QUANT and RECON: what the model reads from each form, and that every quantizer and every reconstruction that
I2 allows can be given to an instance as a table. -/

namespace Sys2Proof.Machine

/-! ## The forms -/

theorem quant_successive {P : Params} (h : P.quantizer = .successive) (a ss : Nat) : quant P a ss = voxQuant a ss := by
  simp [quant, h]

theorem quant_table {P : Params} {rows} (h : P.quantizer = .table rows) (a ss : Nat) :
    quant P a ss = tableQuant rows a ss := by
  simp [quant, h]

theorem recon_bitSum {P : Params} (h : P.reconstruction = .bitSum) (m : BitVec 3) (ss : Nat) :
    recon P m ss = voxRecon m ss := by
  simp [recon, h]

theorem recon_table {P : Params} {rows} (h : P.reconstruction = .table rows) (m : BitVec 3) (ss : Nat) :
    recon P m ss = runningSum (tableReconStep rows ss) m.toNat := by
  simp [recon, h]

theorem runningSum_mono (step : Nat → Nat) : Monotone (runningSum step) :=
  monotone_nat_of_le_succ fun _ => Nat.le_add_right _ _

/-! ## Every concrete pair is a table -/

theorem lookup_map_of_mem {α : Type} (f : Nat → α) {sizes : List Nat} {ss : Nat} (h : ss ∈ sizes) :
    (sizes.map fun k => (k, f k)).lookup ss = some (f ss) := by
  induction sizes with
  | nil => cases h
  | cons k rest ih =>
    rw [List.map_cons, List.lookup_cons]
    by_cases e : ss = k
    · simp [e]
    · rw [beq_false_of_ne e]
      exact ih ((List.mem_cons.1 h).resolve_left e)

/-- Breakpoints that all lie above a give no level. -/
theorem levelAt_eq_none {a : Nat} {row : List (Nat × BitVec 3)} (h : ∀ p ∈ row, a < p.1) : levelAt a row = none := by
  induction row with
  | nil => rfl
  | cons p rest ih =>
    have h1 : a < p.1 := h p (by simp)
    rw [levelAt, ih fun q hq => h q (by simp [hq])]
    simp [h1]

/-- A breakpoint at every |delta| of a range gives each its own level. -/
theorem levelAt_range' (f : Nat → BitVec 3) {a i n : Nat} (h1 : i ≤ a) (h2 : a < i + n) :
    levelAt a ((List.range' i n).map fun k => (k, f k)) = some (f a) := by
  induction n generalizing i with
  | zero => omega
  | succ n ih =>
    rw [List.range'_succ, List.map_cons, levelAt]
    rcases Nat.eq_or_lt_of_le h1 with rfl | h1
    · rw [levelAt_eq_none (by simp; omega)]
      simp
    · rw [ih h1 (by omega)]

/-- Every quantizer is a table, on any step sizes and up to any |delta| (R6). -/
theorem exists_table_quant (q : Nat → Nat → BitVec 3) (sizes : List Nat) (n : Nat) :
    ∃ rows, ∀ a ss, ss ∈ sizes → a < n → tableQuant rows a ss = q a ss := by
  refine ⟨sizes.map fun ss => (ss, (List.range' 0 n).map fun a => (a, q a ss)), fun a ss hs ha => ?_⟩
  rw [tableQuant, lookup_map_of_mem _ hs]
  rw [Option.bind_some, levelAt_range' (fun a => q a ss) (Nat.zero_le a) (show a < 0 + n by omega)]
  rfl

/-- The running sum of a function's increments is the function, where it does not decrease. -/
theorem runningSum_increments {f step : Nat → Nat} {n : Nat} (h0 : step 0 = f 0)
    (h : ∀ m, m + 1 ≤ n → f m ≤ f (m + 1) ∧ step (m + 1) = f (m + 1) - f m) : ∀ m, m ≤ n → runningSum step m = f m
  | 0, _ => h0
  | m + 1, hm => by
    rw [runningSum, runningSum_increments h0 h m (by omega), (h m hm).2]
    exact Nat.add_sub_cancel' (h m hm).1

/-- Every reconstruction that does not decrease in the level is a table, on any step sizes (R6, I2). -/
theorem exists_table_recon (r : Nat → Nat → Nat) (sizes : List Nat) (hr : ∀ ss, ss ∈ sizes → ∀ m, m < 7 → r m ss ≤ r (m + 1) ss) :
    ∃ rows, ∀ ss, ss ∈ sizes → ∀ m : BitVec 3, runningSum (tableReconStep rows ss) m.toNat = r m.toNat ss := by
  refine ⟨sizes.map fun ss => (ss, Vector.ofFn fun i : Fin 8 => if i.val = 0 then r 0 ss else r i.val ss - r (i.val - 1) ss),
    fun ss hs m => ?_⟩
  have hstep : ∀ l, l < 8 → tableReconStep (sizes.map fun ss =>
      (ss, Vector.ofFn fun i : Fin 8 => if i.val = 0 then r 0 ss else r i.val ss - r (i.val - 1) ss)) ss l =
      if l = 0 then r 0 ss else r l ss - r (l - 1) ss := by
    intro l hl
    rw [tableReconStep, lookup_map_of_mem _ hs]
    simp [List.getD, hl]
  refine runningSum_increments (f := fun m => r m ss) (n := 7) (by rw [hstep 0 (by omega)]; rfl) (fun l hl => ?_) m.toNat
    (by have := m.isLt; omega)
  exact ⟨hr ss hs l (by omega), by rw [hstep (l + 1) (by omega)]; simp⟩

end Sys2Proof.Machine
end

