-- ==== Sys2Proof/Laws/Decode.lean ====
section
/-! SUPPORT. The bits and fields of a packed command word (R46), the masks of R48 as fields, and the decoder opcode by opcode. -/

namespace Sys2Proof

/-- The bits of a packed command word, field by field (R46). -/
theorem getLsbD_packWord (op : BitVec 4) (d : BitVec 1) (v : BitVec 8) (i : BitVec 16) (k : Nat) :
    (packWord op d v i).getLsbD k =
      if k < 16 then i.getLsbD k else if k < 24 then v.getLsbD (k - 16) else if k < 27 then false
      else if k < 28 then d.getLsbD (k - 27) else op.getLsbD (k - 28) := by
  change ((op ++ d ++ (0 : BitVec 3) ++ v ++ i : BitVec (4 + 1 + 3 + 8 + 16))).getLsbD k = _
  simp only [BitVec.getLsbD_append]
  by_cases h1 : k < 16
  · simp [h1]
  by_cases h2 : k < 24
  · simp [h1, h2, show k - 16 < 8 by omega]
  by_cases h3 : k < 27
  · simp [h1, h2, h3, show ¬ k - 16 < 8 by omega, show k - 16 - 8 < 3 by omega]
  by_cases h4 : k < 28
  · simp [h1, h2, h3, h4, show ¬ k - 16 < 8 by omega, show ¬ k - 16 - 8 < 3 by omega, show k - 16 - 8 - 3 = 0 by omega,
      show k - 27 = 0 by omega]
  · simp [h1, h2, h3, h4, show ¬ k - 16 < 8 by omega, show ¬ k - 16 - 8 < 3 by omega, show ¬ k - 16 - 8 - 3 = 0 by omega,
      show k - 16 - 8 - 3 - 1 = k - 28 by omega]

theorem opField_packWord (op : BitVec 4) (d : BitVec 1) (v : BitVec 8) (i : BitVec 16) :
    opField (packWord op d v i) = op := by
  apply BitVec.eq_of_getLsbD_eq
  intro k hk
  simp [opField, getLsbD_packWord, hk, show ¬ 28 + k < 16 by omega, show ¬ 28 + k < 24 by omega,
    show ¬ 28 + k < 27 by omega]

theorem dirBit_packWord (op : BitVec 4) (d : BitVec 1) (v : BitVec 8) (i : BitVec 16) :
    (packWord op d v i).getLsbD 27 = d.getLsbD 0 := by
  rw [getLsbD_packWord]
  rfl

theorem widField_packWord (op : BitVec 4) (d : BitVec 1) (v : BitVec 8) (i : BitVec 16) :
    widField (packWord op d v i) = v := by
  apply BitVec.eq_of_getLsbD_eq
  intro k hk
  simp [widField, getLsbD_packWord, hk, show 16 + k < 24 by omega]

theorem immField_packWord (op : BitVec 4) (d : BitVec 1) (v : BitVec 8) (i : BitVec 16) :
    immField (packWord op d v i) = i := by
  apply BitVec.eq_of_getLsbD_eq
  intro k hk
  simp [immField, getLsbD_packWord, hk]

/-- A word is the packing of its fields when bits 26:24 are zero. -/
theorem eq_packWord (w : Word) (h : w.extractLsb' 24 3 = 0) :
    w = packWord (opField w) (w.extractLsb' 27 1) (widField w) (immField w) := by
  apply BitVec.eq_of_getLsbD_eq
  intro k hk
  simp only [getLsbD_packWord, opField, widField, immField, BitVec.getLsbD_extractLsb']
  split
  · simp_all
  split
  · rw [show 16 + (k - 16) = k by omega, show decide (k - 16 < 8) = true by simp; omega, Bool.true_and]
  split
  · have := congrArg (fun v => BitVec.getLsbD v (k - 24)) h
    simpa [BitVec.getLsbD_extractLsb', show k - 24 < 3 by omega, show 24 + (k - 24) = k by omega] using this
  split
  · rw [show 27 + (k - 27) = k by omega, show decide (k - 27 < 1) = true by simp; omega, Bool.true_and]
  · rw [show 28 + (k - 28) = k by omega, show decide (k - 28 < 4) = true by simp; omega, Bool.true_and]

/-- A word with every required-zero field zero and the row's OP matches the row (R48), said of one bit at a time. -/
theorem and_eq_of_bits (w mask pattern : Word)
    (h : ∀ k, k < 32 → (w.getLsbD k && mask.getLsbD k) = pattern.getLsbD k) : w &&& mask = pattern := by
  apply BitVec.eq_of_getLsbD_eq
  intro k hk
  rw [BitVec.getLsbD_and]
  exact h k hk

/-! ## The masks of R48, as fields -/

/-- A bit under the mask is the pattern's. -/
theorem getLsbD_of_and {w mask pattern : Word} (h : w &&& mask = pattern) (k : Nat) (hm : mask.getLsbD k = true) :
    w.getLsbD k = pattern.getLsbD k := by
  have := congrArg (fun v => BitVec.getLsbD v k) h
  simpa [hm] using this

theorem mask_openStream (w : Word) : w &&& 0xF700FFFF = 0x10000000 ↔
    opField w = 1 ∧ w.extractLsb' 24 3 = 0 ∧ immField w = 0 := by
  unfold opField immField
  constructor
  · intro h
    refine ⟨?_, ?_, ?_⟩ <;>
    · apply BitVec.eq_of_getLsbD_eq
      intro k hk
      rw [BitVec.getLsbD_extractLsb']
      simp only [hk, decide_true, Bool.true_and]
      interval_cases k <;> (rw [getLsbD_of_and h _ (by decide)]; decide)
  · rintro ⟨h1, h2, h3⟩
    apply and_eq_of_bits
    intro k hk
    have e1 := congrArg (fun v => BitVec.getLsbD v (k - 28)) h1
    have e2 := congrArg (fun v => BitVec.getLsbD v (k - 24)) h2
    have e3 := congrArg (fun v => BitVec.getLsbD v k) h3
    simp only [BitVec.getLsbD_extractLsb'] at e1 e2 e3
    interval_cases k <;> first | (simp; done) | simpa using e3 | simpa using e2 | simpa using e1

/-- The rows of ENC, NIN and NOUT. -/
theorem mask_imm (w : Word) (o : BitVec 4) : w &&& 0xFFFF0000 = packWord o 0 0 0 ↔
    opField w = o ∧ w.extractLsb' 16 12 = 0 := by
  unfold opField
  constructor
  · intro h
    refine ⟨?_, ?_⟩ <;>
    · apply BitVec.eq_of_getLsbD_eq
      intro k hk
      rw [BitVec.getLsbD_extractLsb']
      simp only [hk, decide_true, Bool.true_and]
      interval_cases k <;> (rw [getLsbD_of_and h _ (by decide), getLsbD_packWord]; simp)
  · rintro ⟨h1, h2⟩
    apply and_eq_of_bits
    intro k hk
    have e1 := congrArg (fun v => BitVec.getLsbD v (k - 28)) h1
    have e2 := congrArg (fun v => BitVec.getLsbD v (k - 16)) h2
    simp only [BitVec.getLsbD_extractLsb'] at e1 e2
    rw [getLsbD_packWord]
    interval_cases k <;> first | (simp; done) | simpa using e2 | simpa using e1

theorem mask_dec (w : Word) : w &&& 0xFFFFFFF0 = 0x40000000 ↔ opField w = 4 ∧ w.extractLsb' 4 24 = 0 := by
  unfold opField
  constructor
  · intro h
    refine ⟨?_, ?_⟩ <;>
    · apply BitVec.eq_of_getLsbD_eq
      intro k hk
      rw [BitVec.getLsbD_extractLsb']
      simp only [hk, decide_true, Bool.true_and]
      interval_cases k <;> (rw [getLsbD_of_and h _ (by decide)]; decide)
  · rintro ⟨h1, h2⟩
    apply and_eq_of_bits
    intro k hk
    have e1 := congrArg (fun v => BitVec.getLsbD v (k - 28)) h1
    have e2 := congrArg (fun v => BitVec.getLsbD v (k - 4)) h2
    simp only [BitVec.getLsbD_extractLsb'] at e1 e2
    interval_cases k <;> first | (simp; done) | simpa using e2 | simpa using e1

/-- The rows of INIT and RUN. -/
theorem mask_all (w : Word) (o : BitVec 4) : w &&& 0xFFFFFFFF = packWord o 0 0 0 ↔
    opField w = o ∧ w.extractLsb' 0 28 = 0 := by
  rw [show (0xFFFFFFFF : Word) = BitVec.allOnes 32 by decide, BitVec.and_allOnes]
  constructor
  · rintro rfl
    refine ⟨opField_packWord .., ?_⟩
    apply BitVec.eq_of_getLsbD_eq
    intro k hk
    rw [BitVec.getLsbD_extractLsb', getLsbD_packWord]
    interval_cases k <;> simp
  · unfold opField
    rintro ⟨h1, h2⟩
    apply BitVec.eq_of_getLsbD_eq
    intro k hk
    have e1 := congrArg (fun v => BitVec.getLsbD v (k - 28)) h1
    have e2 := congrArg (fun v => BitVec.getLsbD v k) h2
    simp only [BitVec.getLsbD_extractLsb'] at e1 e2
    rw [getLsbD_packWord]
    interval_cases k <;> first | (simp; done) | simpa using e2 | simpa using e1

/-! ## The decoder, opcode by opcode: its row's condition as fields -/

theorem selectRow_iff {w mask pattern : Word} {c : Prop} [Decidable c] (i : Instr) (h : w &&& mask = pattern ↔ c) :
    selectRow w mask pattern i = if c then .ok i else .error .reservedBits := by
  unfold selectRow
  by_cases hc : c
  · rw [if_pos (h.2 hc), if_pos hc]
  · rw [if_neg (fun hm => hc (h.1 hm)), if_neg hc]

theorem decode_openStream {w : Word} (h : opField w = 1) : decode w =
    if w.extractLsb' 24 3 = 0 ∧ immField w = 0 then .ok (.openStream (dirField w) (widField w)) else .error .reservedBits := by
  unfold decode
  rw [h]
  exact selectRow_iff _ (by rw [mask_openStream]; simp [h])

theorem decode_init {w : Word} (h : opField w = 2) : decode w =
    if w.extractLsb' 0 28 = 0 then .ok .init else .error .reservedBits := by
  unfold decode
  rw [h]
  exact selectRow_iff _ ((mask_all w 2).trans (by simp [h]))

theorem decode_enc {w : Word} (h : opField w = 3) : decode w =
    if w.extractLsb' 16 12 = 0 then .ok (.enc (immField w)) else .error .reservedBits := by
  unfold decode
  rw [h]
  exact selectRow_iff _ ((mask_imm w 3).trans (by simp [h]))

theorem decode_dec {w : Word} (h : opField w = 4) : decode w =
    if w.extractLsb' 4 24 = 0 then .ok (.dec (w.extractLsb' 0 4)) else .error .reservedBits := by
  unfold decode
  rw [h]
  exact selectRow_iff _ ((mask_dec w).trans (by simp [h]))

theorem decode_nin {w : Word} (h : opField w = 5) : decode w =
    if w.extractLsb' 16 12 = 0 then .ok (.nin (immField w)) else .error .reservedBits := by
  unfold decode
  rw [h]
  exact selectRow_iff _ ((mask_imm w 5).trans (by simp [h]))

theorem decode_nout {w : Word} (h : opField w = 6) : decode w =
    if w.extractLsb' 16 12 = 0 then .ok (.nout (immField w)) else .error .reservedBits := by
  unfold decode
  rw [h]
  exact selectRow_iff _ ((mask_imm w 6).trans (by simp [h]))

theorem decode_run {w : Word} (h : opField w = 7) : decode w =
    if w.extractLsb' 0 28 = 0 then .ok .run else .error .reservedBits := by
  unfold decode
  rw [h]
  exact selectRow_iff _ ((mask_all w 7).trans (by simp [h]))

theorem decode_badOp {w : Word} (h : opField w = 0 ∨ 8 ≤ (opField w).toNat) : decode w = .error .badOp := by
  have h0 : (opField w).toNat = 0 ∨ 8 ≤ (opField w).toNat := by
    rcases h with h | h
    · exact .inl (by rw [h]; rfl)
    · exact .inr h
  unfold decode
  split <;> first | rfl | omega

/-- OP is one of the seven of R47, or a reserved one. -/
theorem opField_cases (w : Word) : opField w = 1 ∨ opField w = 2 ∨ opField w = 3 ∨ opField w = 4 ∨ opField w = 5 ∨
    opField w = 6 ∨ opField w = 7 ∨ opField w = 0 ∨ 8 ≤ (opField w).toNat := by
  generalize opField w = o
  revert o
  decide

end Sys2Proof
end

