-- ==== Sys2Proof/Laws/State.lean ====
section
/-! SUPPORT. What each named update of State leaves in each field, one lemma per field and update. -/

namespace Sys2Proof.Machine

/-! ## `State.refuse` -/

@[simp] theorem State.refuse_pred (s : State) : s.refuse.pred = s.pred := rfl
@[simp] theorem State.refuse_idx (s : State) : s.refuse.idx = s.idx := rfl
@[simp] theorem State.refuse_result (s : State) : s.refuse.result = s.result := rfl
@[simp] theorem State.refuse_cfgWidth (s : State) : s.refuse.cfgWidth = s.cfgWidth := rfl
@[simp] theorem State.refuse_cfgDir (s : State) : s.refuse.cfgDir = s.cfgDir := rfl
@[simp] theorem State.refuse_ctl (s : State) : s.refuse.ctl = s.ctl := rfl
@[simp] theorem State.refuse_err (s : State) : s.refuse.err = s.err := rfl
@[simp] theorem State.refuse_fallback (s : State) : s.refuse.fallback = s.fallback := rfl
@[simp] theorem State.refuse_ill (s : State) : s.refuse.ill = true := rfl
@[simp] theorem State.refuse_buf (s : State) : s.refuse.buf = s.buf := rfl
@[simp] theorem State.refuse_params (s : State) : s.refuse.params = s.params := rfl
@[simp] theorem State.refuse_inputs (s : State) : s.refuse.inputs = s.inputs := rfl
@[simp] theorem State.refuse_allocReport (s : State) : s.refuse.allocReport = s.allocReport := rfl
@[simp] theorem State.refuse_consumed (s : State) : s.refuse.consumed = s.consumed := rfl
@[simp] theorem State.refuse_output (s : State) : s.refuse.output = s.output := rfl
@[simp] theorem State.refuse_replies (s : State) : s.refuse.replies = s.replies := rfl
@[simp] theorem State.refuse_draws (s : State) : s.refuse.draws = s.draws := rfl

/-! ## `State.fatal` -/

@[simp] theorem State.fatal_pred (s : State) (e : Err) : (s.fatal e).pred = s.pred := rfl
@[simp] theorem State.fatal_idx (s : State) (e : Err) : (s.fatal e).idx = s.idx := rfl
@[simp] theorem State.fatal_result (s : State) (e : Err) : (s.fatal e).result = s.result := rfl
@[simp] theorem State.fatal_cfgWidth (s : State) (e : Err) : (s.fatal e).cfgWidth = s.cfgWidth := rfl
@[simp] theorem State.fatal_cfgDir (s : State) (e : Err) : (s.fatal e).cfgDir = s.cfgDir := rfl
@[simp] theorem State.fatal_ctl (s : State) (e : Err) : (s.fatal e).ctl = .failed := rfl
@[simp] theorem State.fatal_err (s : State) (e : Err) : (s.fatal e).err = e := rfl
@[simp] theorem State.fatal_fallback (s : State) (e : Err) : (s.fatal e).fallback = s.fallback := rfl
@[simp] theorem State.fatal_ill (s : State) (e : Err) : (s.fatal e).ill = s.ill := rfl
@[simp] theorem State.fatal_buf (s : State) (e : Err) : (s.fatal e).buf = s.buf := rfl
@[simp] theorem State.fatal_params (s : State) (e : Err) : (s.fatal e).params = s.params := rfl
@[simp] theorem State.fatal_inputs (s : State) (e : Err) : (s.fatal e).inputs = s.inputs := rfl
@[simp] theorem State.fatal_allocReport (s : State) (e : Err) : (s.fatal e).allocReport = s.allocReport := rfl
@[simp] theorem State.fatal_consumed (s : State) (e : Err) : (s.fatal e).consumed = s.consumed := rfl
@[simp] theorem State.fatal_output (s : State) (e : Err) : (s.fatal e).output = s.output := rfl
@[simp] theorem State.fatal_replies (s : State) (e : Err) : (s.fatal e).replies = s.replies := rfl
@[simp] theorem State.fatal_draws (s : State) (e : Err) : (s.fatal e).draws = s.draws := rfl

/-! ## `State.withCodec` -/

@[simp] theorem State.withCodec_pred (s : State) (c : CodecState) : (s.withCodec c).pred = c.pred := rfl
@[simp] theorem State.withCodec_idx (s : State) (c : CodecState) : (s.withCodec c).idx = c.idx := rfl
@[simp] theorem State.withCodec_result (s : State) (c : CodecState) : (s.withCodec c).result = s.result := rfl
@[simp] theorem State.withCodec_cfgWidth (s : State) (c : CodecState) : (s.withCodec c).cfgWidth = s.cfgWidth := rfl
@[simp] theorem State.withCodec_cfgDir (s : State) (c : CodecState) : (s.withCodec c).cfgDir = s.cfgDir := rfl
@[simp] theorem State.withCodec_ctl (s : State) (c : CodecState) : (s.withCodec c).ctl = s.ctl := rfl
@[simp] theorem State.withCodec_err (s : State) (c : CodecState) : (s.withCodec c).err = s.err := rfl
@[simp] theorem State.withCodec_fallback (s : State) (c : CodecState) : (s.withCodec c).fallback = s.fallback := rfl
@[simp] theorem State.withCodec_ill (s : State) (c : CodecState) : (s.withCodec c).ill = s.ill := rfl
@[simp] theorem State.withCodec_buf (s : State) (c : CodecState) : (s.withCodec c).buf = s.buf := rfl
@[simp] theorem State.withCodec_params (s : State) (c : CodecState) : (s.withCodec c).params = s.params := rfl
@[simp] theorem State.withCodec_inputs (s : State) (c : CodecState) : (s.withCodec c).inputs = s.inputs := rfl
@[simp] theorem State.withCodec_allocReport (s : State) (c : CodecState) : (s.withCodec c).allocReport = s.allocReport := rfl
@[simp] theorem State.withCodec_consumed (s : State) (c : CodecState) : (s.withCodec c).consumed = s.consumed := rfl
@[simp] theorem State.withCodec_output (s : State) (c : CodecState) : (s.withCodec c).output = s.output := rfl
@[simp] theorem State.withCodec_replies (s : State) (c : CodecState) : (s.withCodec c).replies = s.replies := rfl
@[simp] theorem State.withCodec_draws (s : State) (c : CodecState) : (s.withCodec c).draws = s.draws := rfl

/-! ## `State.withResult` -/

@[simp] theorem State.withResult_pred (s : State) (r : Word) : (s.withResult r).pred = s.pred := rfl
@[simp] theorem State.withResult_idx (s : State) (r : Word) : (s.withResult r).idx = s.idx := rfl
@[simp] theorem State.withResult_result (s : State) (r : Word) : (s.withResult r).result = r := rfl
@[simp] theorem State.withResult_cfgWidth (s : State) (r : Word) : (s.withResult r).cfgWidth = s.cfgWidth := rfl
@[simp] theorem State.withResult_cfgDir (s : State) (r : Word) : (s.withResult r).cfgDir = s.cfgDir := rfl
@[simp] theorem State.withResult_ctl (s : State) (r : Word) : (s.withResult r).ctl = s.ctl := rfl
@[simp] theorem State.withResult_err (s : State) (r : Word) : (s.withResult r).err = s.err := rfl
@[simp] theorem State.withResult_fallback (s : State) (r : Word) : (s.withResult r).fallback = s.fallback := rfl
@[simp] theorem State.withResult_ill (s : State) (r : Word) : (s.withResult r).ill = s.ill := rfl
@[simp] theorem State.withResult_buf (s : State) (r : Word) : (s.withResult r).buf = s.buf := rfl
@[simp] theorem State.withResult_params (s : State) (r : Word) : (s.withResult r).params = s.params := rfl
@[simp] theorem State.withResult_inputs (s : State) (r : Word) : (s.withResult r).inputs = s.inputs := rfl
@[simp] theorem State.withResult_allocReport (s : State) (r : Word) : (s.withResult r).allocReport = s.allocReport := rfl
@[simp] theorem State.withResult_consumed (s : State) (r : Word) : (s.withResult r).consumed = s.consumed := rfl
@[simp] theorem State.withResult_output (s : State) (r : Word) : (s.withResult r).output = s.output := rfl
@[simp] theorem State.withResult_replies (s : State) (r : Word) : (s.withResult r).replies = s.replies := rfl
@[simp] theorem State.withResult_draws (s : State) (r : Word) : (s.withResult r).draws = s.draws := rfl

/-! ## `State.withCtl` -/

@[simp] theorem State.withCtl_pred (s : State) (c : Ctl) : (s.withCtl c).pred = s.pred := rfl
@[simp] theorem State.withCtl_idx (s : State) (c : Ctl) : (s.withCtl c).idx = s.idx := rfl
@[simp] theorem State.withCtl_result (s : State) (c : Ctl) : (s.withCtl c).result = s.result := rfl
@[simp] theorem State.withCtl_cfgWidth (s : State) (c : Ctl) : (s.withCtl c).cfgWidth = s.cfgWidth := rfl
@[simp] theorem State.withCtl_cfgDir (s : State) (c : Ctl) : (s.withCtl c).cfgDir = s.cfgDir := rfl
@[simp] theorem State.withCtl_ctl (s : State) (c : Ctl) : (s.withCtl c).ctl = c := rfl
@[simp] theorem State.withCtl_err (s : State) (c : Ctl) : (s.withCtl c).err = s.err := rfl
@[simp] theorem State.withCtl_fallback (s : State) (c : Ctl) : (s.withCtl c).fallback = s.fallback := rfl
@[simp] theorem State.withCtl_ill (s : State) (c : Ctl) : (s.withCtl c).ill = s.ill := rfl
@[simp] theorem State.withCtl_buf (s : State) (c : Ctl) : (s.withCtl c).buf = s.buf := rfl
@[simp] theorem State.withCtl_params (s : State) (c : Ctl) : (s.withCtl c).params = s.params := rfl
@[simp] theorem State.withCtl_inputs (s : State) (c : Ctl) : (s.withCtl c).inputs = s.inputs := rfl
@[simp] theorem State.withCtl_allocReport (s : State) (c : Ctl) : (s.withCtl c).allocReport = s.allocReport := rfl
@[simp] theorem State.withCtl_consumed (s : State) (c : Ctl) : (s.withCtl c).consumed = s.consumed := rfl
@[simp] theorem State.withCtl_output (s : State) (c : Ctl) : (s.withCtl c).output = s.output := rfl
@[simp] theorem State.withCtl_replies (s : State) (c : Ctl) : (s.withCtl c).replies = s.replies := rfl
@[simp] theorem State.withCtl_draws (s : State) (c : Ctl) : (s.withCtl c).draws = s.draws := rfl

/-! ## `State.append` -/

@[simp] theorem State.append_pred (s : State) (b : List Byte) : (s.append b).pred = s.pred := rfl
@[simp] theorem State.append_idx (s : State) (b : List Byte) : (s.append b).idx = s.idx := rfl
@[simp] theorem State.append_result (s : State) (b : List Byte) : (s.append b).result = s.result := rfl
@[simp] theorem State.append_cfgWidth (s : State) (b : List Byte) : (s.append b).cfgWidth = s.cfgWidth := rfl
@[simp] theorem State.append_cfgDir (s : State) (b : List Byte) : (s.append b).cfgDir = s.cfgDir := rfl
@[simp] theorem State.append_ctl (s : State) (b : List Byte) : (s.append b).ctl = s.ctl := rfl
@[simp] theorem State.append_err (s : State) (b : List Byte) : (s.append b).err = s.err := rfl
@[simp] theorem State.append_fallback (s : State) (b : List Byte) : (s.append b).fallback = s.fallback := rfl
@[simp] theorem State.append_ill (s : State) (b : List Byte) : (s.append b).ill = s.ill := rfl
@[simp] theorem State.append_buf (s : State) (b : List Byte) : (s.append b).buf = s.buf := rfl
@[simp] theorem State.append_params (s : State) (b : List Byte) : (s.append b).params = s.params := rfl
@[simp] theorem State.append_inputs (s : State) (b : List Byte) : (s.append b).inputs = s.inputs := rfl
@[simp] theorem State.append_allocReport (s : State) (b : List Byte) : (s.append b).allocReport = s.allocReport := rfl
@[simp] theorem State.append_consumed (s : State) (b : List Byte) : (s.append b).consumed = s.consumed := rfl
@[simp] theorem State.append_output (s : State) (b : List Byte) : (s.append b).output = s.output ++ b := rfl
@[simp] theorem State.append_replies (s : State) (b : List Byte) : (s.append b).replies = s.replies := rfl
@[simp] theorem State.append_draws (s : State) (b : List Byte) : (s.append b).draws = s.draws := rfl

/-! ## `State.consume` -/

@[simp] theorem State.consume_pred (s : State) (b : List Byte) : (s.consume b).pred = s.pred := rfl
@[simp] theorem State.consume_idx (s : State) (b : List Byte) : (s.consume b).idx = s.idx := rfl
@[simp] theorem State.consume_result (s : State) (b : List Byte) : (s.consume b).result = s.result := rfl
@[simp] theorem State.consume_cfgWidth (s : State) (b : List Byte) : (s.consume b).cfgWidth = s.cfgWidth := rfl
@[simp] theorem State.consume_cfgDir (s : State) (b : List Byte) : (s.consume b).cfgDir = s.cfgDir := rfl
@[simp] theorem State.consume_ctl (s : State) (b : List Byte) : (s.consume b).ctl = s.ctl := rfl
@[simp] theorem State.consume_err (s : State) (b : List Byte) : (s.consume b).err = s.err := rfl
@[simp] theorem State.consume_fallback (s : State) (b : List Byte) : (s.consume b).fallback = s.fallback := rfl
@[simp] theorem State.consume_ill (s : State) (b : List Byte) : (s.consume b).ill = s.ill := rfl
@[simp] theorem State.consume_buf (s : State) (b : List Byte) : (s.consume b).buf = s.buf := rfl
@[simp] theorem State.consume_params (s : State) (b : List Byte) : (s.consume b).params = s.params := rfl
@[simp] theorem State.consume_inputs (s : State) (b : List Byte) : (s.consume b).inputs = s.inputs := rfl
@[simp] theorem State.consume_allocReport (s : State) (b : List Byte) : (s.consume b).allocReport = s.allocReport := rfl
@[simp] theorem State.consume_consumed (s : State) (b : List Byte) : (s.consume b).consumed = s.consumed ++ b := rfl
@[simp] theorem State.consume_output (s : State) (b : List Byte) : (s.consume b).output = s.output := rfl
@[simp] theorem State.consume_replies (s : State) (b : List Byte) : (s.consume b).replies = s.replies := rfl
@[simp] theorem State.consume_draws (s : State) (b : List Byte) : (s.consume b).draws = s.draws := rfl

/-! ## `State.reply` -/

@[simp] theorem State.reply_pred (s : State) (v : Word) : (s.reply v).pred = s.pred := rfl
@[simp] theorem State.reply_idx (s : State) (v : Word) : (s.reply v).idx = s.idx := rfl
@[simp] theorem State.reply_result (s : State) (v : Word) : (s.reply v).result = s.result := rfl
@[simp] theorem State.reply_cfgWidth (s : State) (v : Word) : (s.reply v).cfgWidth = s.cfgWidth := rfl
@[simp] theorem State.reply_cfgDir (s : State) (v : Word) : (s.reply v).cfgDir = s.cfgDir := rfl
@[simp] theorem State.reply_ctl (s : State) (v : Word) : (s.reply v).ctl = s.ctl := rfl
@[simp] theorem State.reply_err (s : State) (v : Word) : (s.reply v).err = s.err := rfl
@[simp] theorem State.reply_fallback (s : State) (v : Word) : (s.reply v).fallback = s.fallback := rfl
@[simp] theorem State.reply_ill (s : State) (v : Word) : (s.reply v).ill = s.ill := rfl
@[simp] theorem State.reply_buf (s : State) (v : Word) : (s.reply v).buf = s.buf := rfl
@[simp] theorem State.reply_params (s : State) (v : Word) : (s.reply v).params = s.params := rfl
@[simp] theorem State.reply_inputs (s : State) (v : Word) : (s.reply v).inputs = s.inputs := rfl
@[simp] theorem State.reply_allocReport (s : State) (v : Word) : (s.reply v).allocReport = s.allocReport := rfl
@[simp] theorem State.reply_consumed (s : State) (v : Word) : (s.reply v).consumed = s.consumed := rfl
@[simp] theorem State.reply_output (s : State) (v : Word) : (s.reply v).output = s.output := rfl
@[simp] theorem State.reply_replies (s : State) (v : Word) : (s.reply v).replies = s.replies ++ [v] := rfl
@[simp] theorem State.reply_draws (s : State) (v : Word) : (s.reply v).draws = s.draws := rfl

/-! ## `State.commanded` -/

@[simp] theorem State.commanded_pred (s : State) (w : Word) : (s.commanded w).pred = s.pred := rfl
@[simp] theorem State.commanded_idx (s : State) (w : Word) : (s.commanded w).idx = s.idx := rfl
@[simp] theorem State.commanded_result (s : State) (w : Word) : (s.commanded w).result = s.result := rfl
@[simp] theorem State.commanded_cfgWidth (s : State) (w : Word) : (s.commanded w).cfgWidth = s.cfgWidth := rfl
@[simp] theorem State.commanded_cfgDir (s : State) (w : Word) : (s.commanded w).cfgDir = s.cfgDir := rfl
@[simp] theorem State.commanded_ctl (s : State) (w : Word) : (s.commanded w).ctl = s.ctl := rfl
@[simp] theorem State.commanded_err (s : State) (w : Word) : (s.commanded w).err = s.err := rfl
@[simp] theorem State.commanded_fallback (s : State) (w : Word) : (s.commanded w).fallback = s.fallback := rfl
@[simp] theorem State.commanded_ill (s : State) (w : Word) : (s.commanded w).ill = s.ill := rfl
@[simp] theorem State.commanded_buf (s : State) (w : Word) : (s.commanded w).buf = s.buf := rfl
@[simp] theorem State.commanded_params (s : State) (w : Word) : (s.commanded w).params = s.params := rfl
@[simp] theorem State.commanded_inputs (s : State) (w : Word) : (s.commanded w).inputs = .regWrite 32 s.params.base w :: s.inputs := rfl
@[simp] theorem State.commanded_allocReport (s : State) (w : Word) : (s.commanded w).allocReport = s.allocReport := rfl
@[simp] theorem State.commanded_consumed (s : State) (w : Word) : (s.commanded w).consumed = s.consumed := rfl
@[simp] theorem State.commanded_output (s : State) (w : Word) : (s.commanded w).output = s.output := rfl
@[simp] theorem State.commanded_replies (s : State) (w : Word) : (s.commanded w).replies = s.replies := rfl
@[simp] theorem State.commanded_draws (s : State) (w : Word) : (s.commanded w).draws = s.draws := rfl

/-! ## `State.configured` -/

@[simp] theorem State.configured_pred (s : State) (d : Dir) (v : BitVec 8) : (s.configured d v).pred = 0 := rfl
@[simp] theorem State.configured_idx (s : State) (d : Dir) (v : BitVec 8) : (s.configured d v).idx = BitVec.ofNat 6 s.params.initialIndex := rfl
@[simp] theorem State.configured_result (s : State) (d : Dir) (v : BitVec 8) : (s.configured d v).result = s.result := rfl
@[simp] theorem State.configured_cfgWidth (s : State) (d : Dir) (v : BitVec 8) : (s.configured d v).cfgWidth = (resolveWidth s.params v).1 := rfl
@[simp] theorem State.configured_cfgDir (s : State) (d : Dir) (v : BitVec 8) : (s.configured d v).cfgDir = d := rfl
@[simp] theorem State.configured_ctl (s : State) (d : Dir) (v : BitVec 8) : (s.configured d v).ctl = s.ctl := rfl
@[simp] theorem State.configured_err (s : State) (d : Dir) (v : BitVec 8) : (s.configured d v).err = .noError := rfl
@[simp] theorem State.configured_fallback (s : State) (d : Dir) (v : BitVec 8) : (s.configured d v).fallback = (resolveWidth s.params v).2 := rfl
@[simp] theorem State.configured_ill (s : State) (d : Dir) (v : BitVec 8) : (s.configured d v).ill = s.ill := rfl
@[simp] theorem State.configured_buf (s : State) (d : Dir) (v : BitVec 8) : (s.configured d v).buf = s.buf := rfl
@[simp] theorem State.configured_params (s : State) (d : Dir) (v : BitVec 8) : (s.configured d v).params = s.params := rfl
@[simp] theorem State.configured_inputs (s : State) (d : Dir) (v : BitVec 8) : (s.configured d v).inputs = s.inputs := rfl
@[simp] theorem State.configured_allocReport (s : State) (d : Dir) (v : BitVec 8) : (s.configured d v).allocReport = s.allocReport := rfl
@[simp] theorem State.configured_consumed (s : State) (d : Dir) (v : BitVec 8) : (s.configured d v).consumed = s.consumed := rfl
@[simp] theorem State.configured_output (s : State) (d : Dir) (v : BitVec 8) : (s.configured d v).output = s.output := rfl
@[simp] theorem State.configured_replies (s : State) (d : Dir) (v : BitVec 8) : (s.configured d v).replies = s.replies := rfl
@[simp] theorem State.configured_draws (s : State) (d : Dir) (v : BitVec 8) : (s.configured d v).draws = s.draws := rfl

/-! ## `State.afterReset` -/

@[simp] theorem State.afterReset_pred (s : State) : s.afterReset.pred = 0 := rfl
@[simp] theorem State.afterReset_idx (s : State) : s.afterReset.idx = BitVec.ofNat 6 s.params.initialIndex := rfl
@[simp] theorem State.afterReset_result (s : State) : s.afterReset.result = 0 := rfl
@[simp] theorem State.afterReset_cfgWidth (s : State) : s.afterReset.cfgWidth = .w8 := rfl
@[simp] theorem State.afterReset_cfgDir (s : State) : s.afterReset.cfgDir = .encode := rfl
@[simp] theorem State.afterReset_ctl (s : State) : s.afterReset.ctl = .idle := rfl
@[simp] theorem State.afterReset_err (s : State) : s.afterReset.err = .noError := rfl
@[simp] theorem State.afterReset_fallback (s : State) : s.afterReset.fallback = false := rfl
@[simp] theorem State.afterReset_ill (s : State) : s.afterReset.ill = false := rfl
@[simp] theorem State.afterReset_buf (s : State) : s.afterReset.buf = [] := rfl
@[simp] theorem State.afterReset_params (s : State) : s.afterReset.params = s.params := rfl
@[simp] theorem State.afterReset_inputs (s : State) : s.afterReset.inputs = s.inputs := rfl
@[simp] theorem State.afterReset_allocReport (s : State) : s.afterReset.allocReport = s.allocReport := rfl
@[simp] theorem State.afterReset_consumed (s : State) : s.afterReset.consumed = s.consumed := rfl
@[simp] theorem State.afterReset_output (s : State) : s.afterReset.output = s.output := rfl
@[simp] theorem State.afterReset_replies (s : State) : s.afterReset.replies = s.replies := rfl
@[simp] theorem State.afterReset_draws (s : State) : s.afterReset.draws = s.draws := rfl

/-! ## The codec pair -/

@[simp] theorem State.codec_pred (s : State) : s.codec.pred = s.pred := rfl
@[simp] theorem State.codec_idx (s : State) : s.codec.idx = s.idx := rfl
@[simp] theorem State.withCodec_codec (s : State) (c : CodecState) : (s.withCodec c).codec = c := rfl
@[simp] theorem State.codec_withCodec_self (s : State) : s.withCodec s.codec = s := rfl

end Sys2Proof.Machine
end

