-- ==== Sys2Proof/Laws/Ops.lean ====
section
/-! SUPPORT. What each shared operation can do, said once: the gate and `perform`, the allocation, a register read, the steps of
the block loop, and one step of the machine. -/

namespace Sys2Proof.Machine

/-! ## Commands -/

theorem gate_running {α : Type} {s : State} (h : s.isRunning = true) (o : Option α) : gate s o = .error .busy := by
  simp [gate, h]

theorem gate_some {α : Type} {s : State} (h : s.isRunning = false) (x : α) : gate s (some x) = .ok x := by
  simp [gate, h]

theorem gate_none {α : Type} {s : State} (h : s.isRunning = false) :
    gate s (none : Option α) = .error .operandRange := by
  simp [gate, h]

/-- A command passes the gate exactly when the block is not RUNNING and the operand keeps its constraint (R100). -/
theorem gate_eq_ok {α : Type} {s : State} {o : Option α} {x : α} :
    gate s o = .ok x ↔ s.isRunning = false ∧ o = some x := by
  unfold gate
  cases s.isRunning <;> cases o <;> simp

/-- Every arm of `exec` performs its command's effect. -/
theorem exec_eq_perform (i : Instr) (s : State) : exec i s = perform s (effectOf i s) := by
  cases i <;> rfl

/-- A command either takes effect or is refused; it never stops the machine (R100). -/
theorem exec_cases (i : Instr) (s : State) :
    (∃ t, effectOf i s = .ok t ∧ exec i s = .next t) ∨
    (∃ r, effectOf i s = .error r ∧ exec i s = .next s.refuse) := by
  rw [exec_eq_perform]
  cases h : effectOf i s with
  | ok t => exact .inl ⟨t, rfl, rfl⟩
  | error r => exact .inr ⟨r, rfl, rfl⟩

/-- What each command's effect leaves, when the command is not refused. -/
def Leaves (i : Instr) (s t : State) : Prop :=
  match i with
  | .openStream dir wid =>
    t = if ((s.configured dir wid).allocateBuffer).1 then ((s.configured dir wid).allocateBuffer).2.withCtl .ready
        else ((s.configured dir wid).allocateBuffer).2.fatal .alloc
  | .init => t = s.withCodec (initCodec s.params)
  | .enc imm => ∃ x, sampleOperand imm = some x ∧
      t = (s.withCodec (update s.params s.codec (encodeCode s.params s.codec x))).withResult
        ((encodeCode s.params s.codec x).setWidth 32)
  | .dec code => t = (s.withCodec (update s.params s.codec code)).withResult
      (BitVec.ofInt 32 (update s.params s.codec code).pred.toInt)
  | .nin imm => ∃ x, externalOperand s.cfgWidth imm = some x ∧
      t = s.withResult (BitVec.ofInt 32 (toInternal s.params s.cfgWidth x))
  | .nout imm => ∃ v, sampleOperand imm = some v ∧ t = s.withResult (outResult s.params s.cfgWidth v)
  | .run => s.ctl = .ready ∧ t = s.withCtl (.running .readWait)

/-- A command takes effect only outside RUNNING (R116), and leaves its own state. -/
theorem effectOf_ok {i : Instr} {s t : State} (h : effectOf i s = .ok t) : s.isRunning = false ∧ Leaves i s t := by
  have key : s.isRunning = false := by
    cases hr : s.isRunning with
    | false => rfl
    | true =>
      cases i <;>
        simp [effectOf, openEffect, initEffect, encEffect, decEffect, ninEffect, noutEffect, runEffect, gate_running hr] at h
  refine ⟨key, ?_⟩
  cases i with
  | openStream dir wid =>
    simp only [effectOf, openEffect, gate_some key, Except.ok.injEq] at h
    exact h.symm
  | init => simpa [Leaves, effectOf, initEffect, gate_some key, eq_comm] using h
  | enc imm =>
    cases ho : sampleOperand imm with
    | none => simp [effectOf, encEffect, ho, gate_none key] at h
    | some x => exact ⟨x, ho, by simpa [effectOf, encEffect, ho, gate_some key, encodeSample, eq_comm] using h⟩
  | dec code => simpa [Leaves, effectOf, decEffect, gate_some key, decodeCode, eq_comm] using h
  | nin imm =>
    cases ho : externalOperand s.cfgWidth imm with
    | none => simp [effectOf, ninEffect, ho, gate_none key] at h
    | some x => exact ⟨x, ho, by simpa [effectOf, ninEffect, ho, gate_some key, eq_comm] using h⟩
  | nout imm =>
    cases ho : sampleOperand imm with
    | none => simp [effectOf, noutEffect, ho, gate_none key] at h
    | some v => exact ⟨v, ho, by simpa [effectOf, noutEffect, ho, gate_some key, eq_comm] using h⟩
  | run =>
    simp only [effectOf, runEffect, gate_some key] at h
    split at h
    · exact ⟨‹_›, by simpa [eq_comm] using h⟩
    · cases h

/-- The width that `resolveWidth` selects (R91). -/
theorem resolveWidth_fst (P : Params) (v : BitVec 8) : (resolveWidth P v).1 =
    if v.toNat = 8 then .w8 else if v.toNat = 16 then .w16 else P.defaultWidth := by
  unfold resolveWidth
  split_ifs <;> rfl

/-- FALLBACK says that the requested width was neither 8 nor 16 (R24, R91). -/
theorem resolveWidth_snd (P : Params) (v : BitVec 8) : (resolveWidth P v).2 = decide (v.toNat ≠ 8 ∧ v.toNat ≠ 16) := by
  unfold resolveWidth
  split_ifs <;> simp_all

/-- The allocation writes the model's own fields only (R92). -/
theorem allocateBuffer_state (s : State) :
    s.allocateBuffer.2 = s ∨ s.allocateBuffer.2 = { s with allocReport := none } ∨
    s.allocateBuffer.2 = { s with draws := s.draws + 1 } := by
  unfold State.allocateBuffer
  split
  · split <;> simp
  · simp

/-- An allocation that cannot fail succeeds and changes nothing (R92). -/
theorem allocateBuffer_of_cannot_fail {s : State} (h : s.params.allocMayFail = false) : s.allocateBuffer = (true, s) := by
  simp [State.allocateBuffer, h]

/-! ## Register reads -/

/-- A register read returns STATUS, or RESULT or CODEC with a free value in their place while RUNNING (R34, R114). -/
theorem readRegister_cases {width addr : Nat} {s t : State} {v : Word} (h : readRegister width addr s = some (v, t)) :
    width = 32 ∧
    ((regAt s.params addr = some .status ∧ v = statusWord s ∧ t = s) ∨
     (regAt s.params addr = some .result ∧ s.isRunning = false ∧ v = s.result ∧ t = s) ∨
     (regAt s.params addr = some .codec ∧ s.isRunning = false ∧ v = codecWord s ∧ t = s) ∨
     ((regAt s.params addr = some .result ∨ regAt s.params addr = some .codec) ∧ s.isRunning = true ∧
       (v, t) = s.drawWord)) := by
  unfold readRegister at h
  split at h
  · refine ⟨‹_›, ?_⟩
    cases hr : regAt s.params addr with
    | none => simp [hr] at h
    | some r =>
      cases r <;> cases hs : s.isRunning <;> simp [hr, hs] at h ⊢ <;>
        first | exact ⟨h.1.symm, h.2.symm⟩ | exact h.symm
  · cases h

/-! ## The block loop -/

/-- The block's own move: nothing, or the conversion of BUF with one of the two transitions of R89. -/
theorem blockMove_cases (s : State) :
    (s.ctl ≠ .running .process ∧ s.blockMove = s) ∨
    (s.ctl = .running .process ∧ (convertBlock s.params s.cfgDir s.cfgWidth s.codec s.buf).1 = [] ∧
      s.blockMove = (s.withCodec (convertBlock s.params s.cfgDir s.cfgWidth s.codec s.buf).2).withCtl (.running .readWait)) ∨
    (s.ctl = .running .process ∧ (convertBlock s.params s.cfgDir s.cfgWidth s.codec s.buf).1 ≠ [] ∧
      s.blockMove = { s.withCodec (convertBlock s.params s.cfgDir s.cfgWidth s.codec s.buf).2 with
        buf := (convertBlock s.params s.cfgDir s.cfgWidth s.codec s.buf).1, ctl := .running .writeWait }) := by
  unfold State.blockMove
  split
  · right
    cases hc : convertBlock s.params s.cfgDir s.cfgWidth s.codec s.buf with
    | mk out c => cases out <;> simp_all
  all_goals left; simp_all

/-- What a read answer that the host may give does (R89, R97). -/
theorem readAnswered_cases {a : ReadAnswer} {s t : State} (h : readAnswered a s = .next t) :
    s.ctl = .running .readWait ∧
    ((a = .fail ∧ t = s.fatal .io) ∨
     (a = .ok [] ∧ t = s.withCtl .done) ∨
     (∃ b, a = .ok b ∧ b ≠ [] ∧ b.length ≤ reqBytes s ∧ s.params.shortReadIsError = true ∧ b.length < reqBytes s ∧
       t = (s.consume b).fatal .io) ∨
     (∃ b, a = .ok b ∧ b ≠ [] ∧ b.length ≤ reqBytes s ∧ (s.params.shortReadIsError = true → ¬ b.length < reqBytes s) ∧
       t = { s.consume b with buf := b, ctl := .running .process })) := by
  have hc : s.ctl = .running .readWait := by
    unfold readAnswered outstanding at h
    split at h <;> split at * <;> simp_all
  refine ⟨hc, ?_⟩
  simp only [readAnswered, outstanding, hc] at h
  cases a with
  | fail => exact .inl ⟨rfl, by simpa [eq_comm] using h⟩
  | ok b =>
    by_cases hl : reqBytes s < b.length
    · simp [hl] at h
    simp only [hl, if_false, Host.Outcome.next.injEq] at h
    subst h
    cases b with
    | nil => exact .inr (.inl ⟨rfl, rfl⟩)
    | cons x xs =>
      right; right
      by_cases he : (s.params.shortReadIsError && decide ((x :: xs).length < reqBytes s)) = true
      · simp only [Bool.and_eq_true, decide_eq_true_eq] at he
        exact .inl ⟨_, rfl, by simp, by omega, he.1, he.2, by simp only [State.takeBytes]; rw [if_pos (by simp_all)]⟩
      · refine .inr ⟨_, rfl, by simp, by omega, ?_, by simp only [State.takeBytes]; rw [if_neg he]⟩
        intro hp
        simpa [hp] using he

/-- What a write answer that the host may give does (R36, R89, R97). -/
theorem writeAnswered_cases {a : WriteAnswer} {s t : State} (h : writeAnswered a s = .next t) :
    s.ctl = .running .writeWait ∧
    ((a = .ok ∧ t = (s.append s.buf).withCtl (.running .readWait)) ∨
     (a = .fail ∧ t = (({ s with draws := s.draws + 1 } : State).append
       (s.buf.take (Config.failedWriteLength s.params.base s.draws))).fatal .io)) := by
  have hc : s.ctl = .running .writeWait := by
    unfold writeAnswered outstanding at h
    split at h <;> split at * <;> simp_all
  refine ⟨hc, ?_⟩
  simp only [writeAnswered, outstanding, hc] at h
  cases a with
  | ok => exact .inl ⟨rfl, by simpa [eq_comm] using h⟩
  | fail => exact .inr ⟨rfl, by simpa [State.drawPrefix, eq_comm] using h⟩

/-! ## One step -/

/-- What one event makes of a state, when the machine goes on. -/
def Moves (e : Event) (s t : State) : Prop :=
  match e with
  | .regRead width addr => ∃ v u, readRegister width addr s = some (v, u) ∧ t = u.reply v
  | .regWrite width addr value =>
    writesCmd s.params width addr = true ∧
    ((∃ i, decode value = .ok i ∧ exec i s = .next t) ∨ (∃ r, decode value = .error r ∧ t = s.refuse))
  | .allocReport ok => t = { s with allocReport := some ok }
  | .readAnswer a => readAnswered a s = .next t
  | .writeAnswer a => writeAnswered a s = .next t
  | .blockTurn => t = s.blockMove
  | .reset => t = s.afterReset

/-- A step is the block's own move where no event is left, and the first event's otherwise. -/
theorem step_next_cases {s t : State} (h : step s = .next t) :
    s.params.valid = true ∧
    ((s.inputs = [] ∧ t = s.blockMove) ∨
     (∃ e rest, s.inputs = e :: rest ∧ Moves e { s with inputs := rest } t)) := by
  unfold step fetch at h
  by_cases hv : s.params.valid = true
  · refine ⟨hv, ?_⟩
    simp only [hv, if_true] at h
    cases hi : s.inputs with
    | nil => left; simpa [hi, eq_comm] using h
    | cons e rest =>
      right
      refine ⟨e, rest, rfl, ?_⟩
      simp only [hi] at h
      cases e with
      | regRead width addr =>
        simp only [deliver] at h
        cases hr : readRegister width addr { s with inputs := rest } with
        | none => simp [hr] at h
        | some p => exact ⟨p.1, p.2, hr, by simpa [hr, eq_comm] using h⟩
      | regWrite width addr value =>
        simp only [deliver] at h
        by_cases hw : writesCmd s.params width addr = true
        · refine ⟨hw, ?_⟩
          simp only [hw, if_true] at h
          cases hd : decode value with
          | ok i => exact .inl ⟨i, rfl, by simpa [hd] using h⟩
          | error r => exact .inr ⟨r, rfl, by simpa [hd, eq_comm] using h⟩
        · simp [hw] at h
      | allocReport ok => simpa [deliver, Moves, eq_comm] using h
      | readAnswer a => exact h
      | writeAnswer a => exact h
      | blockTurn => simpa [deliver, Moves, eq_comm] using h
      | reset => simpa [deliver, Moves, eq_comm] using h
  · simp [hv] at h

end Sys2Proof.Machine
end

