-- ==== Sys2Proof/Laws/PerInstr.lean ====
section
/-! SUPPORT. The family RoundTrip: decoding a command's word gives the command back, one lemma per constructor. -/

namespace Sys2Proof.Laws.RoundTrip

/-- The word of a command decodes to it. -/
def Statement (i : Instr) : Prop := decode (encode i) = .ok i

/-- A packed word keeps its row's mask (R48) when each field does: bits 31:28 are OP, bits 26:24 are zero. -/
theorem packWord_and (op : BitVec 4) (d : BitVec 1) (v : BitVec 8) (i : BitVec 16) (md : BitVec 1) (mv : BitVec 8)
    (mi : BitVec 16) (hd : d &&& md = 0) (hv : v &&& mv = 0) (hi : i &&& mi = 0) :
    packWord op d v i &&& (packWord 15 md mv mi ||| 0x07000000) = packWord op 0 0 0 := by
  apply and_eq_of_bits
  intro k hk
  have hd' := congrArg (fun x => BitVec.getLsbD x (k - 27)) hd
  have hv' := congrArg (fun x => BitVec.getLsbD x (k - 16)) hv
  have hi' := congrArg (fun x => BitVec.getLsbD x k) hi
  simp only [BitVec.getLsbD_and] at hd' hv' hi'
  simp only [BitVec.getLsbD_or, getLsbD_packWord]
  by_cases h1 : k < 16
  · simp only [h1, if_true]
    interval_cases k <;> simpa using hi'
  by_cases h2 : k < 24
  · simp only [h1, h2, if_true, if_false]
    interval_cases k <;> simpa using hv'
  by_cases h3 : k < 27
  · simp [h1, h2, h3]
  by_cases h4 : k < 28
  · simp only [h1, h2, h3, h4, if_true, if_false]
    interval_cases k
    simpa using hd'
  · interval_cases k <;> simp

theorem openStream (dir : Dir) (wid : BitVec 8) : Statement (.openStream dir wid) := by
  have h := packWord_and 1 dir.bit wid 0 0 0 0xFFFF (by simp) (by simp) (by simp)
  have hm : (packWord 15 0 0 0xFFFF ||| 0x07000000 : Word) = 0xF700FFFF := by decide
  have hp : packWord 1 0 0 0 = (0x10000000 : Word) := by decide
  rw [hm, hp] at h
  have hdir : dirField (packWord 1 dir.bit wid 0) = dir := by
    rw [dirField, dirBit_packWord]
    cases dir <;> rfl
  simp only [Statement, decode, encode, opField_packWord, selectRow]
  rw [hdir, widField_packWord]
  exact if_pos h

theorem init : Statement .init := by
  unfold Statement
  decide

theorem enc (imm : BitVec 16) : Statement (.enc imm) := by
  have h := packWord_and 3 0 0 imm 1 0xFF 0 (by decide) (by decide) (by simp)
  have hm : (packWord 15 1 0xFF 0 ||| 0x07000000 : Word) = 0xFFFF0000 := by decide
  have hp : packWord 3 0 0 0 = (0x30000000 : Word) := by decide
  rw [hm, hp] at h
  simp only [Statement, decode, encode, opField_packWord, selectRow]
  rw [immField_packWord]
  exact if_pos h

theorem dec (code : Code) : Statement (.dec code) := by
  revert code
  unfold Statement
  decide

theorem nin (imm : BitVec 16) : Statement (.nin imm) := by
  have h := packWord_and 5 0 0 imm 1 0xFF 0 (by decide) (by decide) (by simp)
  have hm : (packWord 15 1 0xFF 0 ||| 0x07000000 : Word) = 0xFFFF0000 := by decide
  have hp : packWord 5 0 0 0 = (0x50000000 : Word) := by decide
  rw [hm, hp] at h
  simp only [Statement, decode, encode, opField_packWord, selectRow]
  rw [immField_packWord]
  exact if_pos h

theorem nout (imm : BitVec 16) : Statement (.nout imm) := by
  have h := packWord_and 6 0 0 imm 1 0xFF 0 (by decide) (by decide) (by simp)
  have hm : (packWord 15 1 0xFF 0 ||| 0x07000000 : Word) = 0xFFFF0000 := by decide
  have hp : packWord 6 0 0 0 = (0x60000000 : Word) := by decide
  rw [hm, hp] at h
  simp only [Statement, decode, encode, opField_packWord, selectRow]
  rw [immField_packWord]
  exact if_pos h

theorem run : Statement .run := by
  unfold Statement
  decide

end Sys2Proof.Laws.RoundTrip
end

