-- ==== Sys2Proof/Tests/Slice0.lean ====
section
/-! SUPPORT. Tests. The expected values are those of spec/95_test_vectors.md (the vector is named in each comment), of the spec's
worked examples, or words written out from the encodings. After them, for every statement with hypotheses, a state and operands that
meet them all (`witness_…`). -/

namespace Sys2Proof.Tests

open Sys2Proof Sys2Proof.Machine Sys2Proof.Claims

/-! ## Helpers -/

/-- The next state, if there is one. -/
def after : Host.Outcome State Fault Refusal → Option State
  | .next s => some s
  | .fault _ => none
  | .refused _ => none

/-- The fault, if there is one. -/
def stopOf : Host.Outcome State Fault Refusal → Option Fault
  | .next _ => none
  | .fault f => some f
  | .refused _ => none

theorem exists_next {o : Host.Outcome State Fault Refusal} (h : (after o).isSome = true) : ∃ t, o = .next t := by
  cases o with
  | next t => exact ⟨t, rfl⟩
  | fault f => cases h
  | refused r => cases h

/-- A test on the state after `o`, where there is one. -/
def ends (o : Host.Outcome State Fault Refusal) (p : State → Bool) : Bool := ((after o).map p).getD false

theorem exists_next_and {o : Host.Outcome State Fault Refusal} {p : State → Bool} (h : ends o p = true) :
    ∃ t, o = .next t ∧ p t = true := by
  cases o with
  | next t => exact ⟨t, rfl, h⟩
  | fault f => cases h
  | refused r => cases h

/-- The state after reset with the controller in another state. -/
def inCtl (c : Ctl) : State := State.reset.withCtl c

/-- The state after reset with a codec state (vectors C3 to C6). -/
def withPair (p : Int) (i : Nat) : State := { State.reset with pred := BitVec.ofInt 12 p, idx := BitVec.ofNat 6 i }

/-- The state after reset at width 16. -/
def wide : State := { State.reset with cfgWidth := .w16 }

/-- A state with the host's coming events. -/
def withInputs (s : State) (es : List Event) : State := { s with inputs := es }

/-- An instance whose allocation can fail. -/
def mayFail (report : Option Bool) : State :=
  { State.reset with params := { Params.voxDefault with allocMayFail := true }, allocReport := report }

/-- An instance that fails on a short read (I4). -/
def strict (c : Ctl) : State :=
  { inCtl c with params := { Params.voxDefault with shortReadIsError := true } }

/-! ## Well-formedness: each check of R49 that the word alone decides refuses an ill-formed command -/

theorem test_wf_enc_high : (Instr.enc 0x0800).wellFormed = false := by decide
theorem test_wf_enc_low : (Instr.enc 0xF7FF).wellFormed = false := by decide
theorem test_wf_nout_high : (Instr.nout 0x0800).wellFormed = false := by decide
theorem test_wf_nout_low : (Instr.nout 0xF7FF).wellFormed = false := by decide
theorem test_wf_bounds : (Instr.enc 0x07FF).wellFormed = true ∧ (Instr.enc 0xF800).wellFormed = true ∧
    (Instr.nout 0x07FF).wellFormed = true ∧ (Instr.nout 0xF800).wellFormed = true := by decide

/-! ## Decoding: words written out from R46 and R47, one for every constructor at least -/

theorem test_decode_open_enc :
    decode 0b0001_0_000_00001000_0000000000000000 = .ok (.openStream .encode 8) := by decide
theorem test_decode_open_dec :
    decode 0b0001_1_000_00001100_0000000000000000 = .ok (.openStream .decode 12) := by decide
theorem test_decode_init : decode 0b0010_0_000_00000000_0000000000000000 = .ok .init := by decide
theorem test_decode_enc : decode 0b0011_0_000_00000000_0000000100000000 = .ok (.enc 256) := by decide
theorem test_decode_dec : decode 0b0100_0_000_00000000_0000000000001111 = .ok (.dec 15) := by decide
theorem test_decode_nin : decode 0b0101_0_000_00000000_1111000000000000 = .ok (.nin 0xF000) := by decide
theorem test_decode_nout : decode 0b0110_0_000_00000000_0000000000100000 = .ok (.nout 32) := by decide
theorem test_decode_run : decode 0b0111_0_000_00000000_0000000000000000 = .ok .run := by decide

/-- Reserved opcodes, then a required-zero bit of each row set at its edge (R47, R48). -/
theorem test_decode_refused :
    ([0x00000000, 0x80000000, 0xF0000000] : List Word).all (fun w => decode w = .error .badOp) = true ∧
    ([0x11000000, 0x14000000, 0x10000001, 0x10008000, 0x20000001, 0x28000000, 0x30010000, 0x38000000, 0x40000010, 0x48000000,
      0x50010000, 0x58000000, 0x60010000, 0x68000000, 0x70000001, 0x78000000] : List Word).all
      (fun w => decode w = .error .reservedBits) = true := by decide

theorem test_decodeTableWord : decodeTableWord 32 0x40000007 = some (.dec 7) ∧ decodeTableWord 32 0x80000000 = none := by
  decide

theorem test_withFetchWord :
    ends (step (State.reset.withFetchWord 32 0x40000007)) (fun t => t.result = 0x1E && t.inputs.isEmpty) = true := by decide

/-! ## Commands, one step each -/

/-- R90's example. -/
theorem test_open : ends (step (State.reset.commanded 0x10100000)) (fun t => statusWord t = 0x00020001) = true := by decide
/-- R91: WID = 12 falls back to width 8. -/
theorem test_open_fallback :
    ends (step (wide.commanded 0x180C0000)) (fun t => statusWord t = 0x00010101) = true := by decide
/-- R69's example. -/
theorem test_init : ends (exec .init (withPair 14 15)) (fun t => codecWord t = 0) = true := by decide
/-- Vector C3, (50, 10), s = −100. -/
theorem test_enc :
    ends (exec (.enc 0xFF9C) (withPair 50 10)) (fun t => t.result = 15 && codecWord t = 0x120FE6) = true := by decide
/-- Vector C3, (2040, 48), s = 2047: the clamp. -/
theorem test_enc_clamp :
    ends (exec (.enc 0x07FF) (withPair 2040 48)) (fun t => t.result = 0 && codecWord t = 0x2F07FF) = true := by decide
/-- R71's example, its second command. -/
theorem test_dec :
    ends (exec (.dec 15) (withPair 30 8)) (fun t => t.result = 0xFFFFFFDF && codecWord t = 0x00100FDF) = true := by decide
/-- Vector C5, (−2048, 0), code 8: both clamps. -/
theorem test_dec_clamp :
    ends (exec (.dec 8) (withPair (-2048) 0)) (fun t => t.result = 0xFFFFF800 && codecWord t = 0x00000800) = true := by decide
/-- Vector N1, u = 1. -/
theorem test_nin8 : ends (exec (.nin 1) State.reset) (fun t => t.result = 0xFFFFF810) = true := by decide
/-- Vector N2, x = −15: the division truncates toward zero. -/
theorem test_nin16 : ends (exec (.nin 0xFFF1) wide) (fun t => t.result = 0) = true := by decide
/-- Vector N3, v = −33. -/
theorem test_nout8 : ends (exec (.nout 0xFFDF) State.reset) (fun t => t.result = 0x7F) = true := by decide
/-- Vector N4, v = −2048. -/
theorem test_nout16 : ends (exec (.nout 0xF800) wide) (fun t => t.result = 0xFFFF8000) = true := by decide
/-- R89: RUN in READY. -/
theorem test_run : ends (exec .run (inCtl .ready)) (fun t => t.ctl = .running .readWait && !t.ill) = true := by decide
/-- R89: RUN in DONE is refused. -/
theorem test_run_refused : ends (exec .run (inCtl .done)) (fun t => t.ctl = .done && t.ill) = true := by decide

/-! ## Blocks and the block loop -/

/-- W1: the encoded bytes, and the encoder's final state. -/
theorem test_encodeBlock : encodeBlock Params.voxDefault .w16 (initCodec Params.voxDefault) [0, 0, 0, 0x10, 0, 0xF0, 0x64, 0] =
    ([0x07, 0xF2], { pred := 14, idx := 15 }) := by decide
/-- W1: the decoded bytes. -/
theorem test_decodeBlock : decodeBlock Params.voxDefault .w16 (initCodec Params.voxDefault) [0x07, 0xF2] =
    ([0x20, 0, 0, 2, 0x10, 0xFE, 0xE0, 0], { pred := 14, idx := 15 }) := by decide
/-- Program P4: three 8-bit samples, the last low nibble the padding's. -/
theorem test_encodeBlock_padding :
    (encodeBlock Params.voxDefault .w8 (initCodec Params.voxDefault) [0x80, 0xFF, 0]).1 = [0x07, 0xF1] := by decide
/-- QUANT is a parameter of its own (R6): at step size 16, thresholds of 17, 21, 25 and 29 in place of R62's 16, 20, 24 and 28, with
VOX-DEFAULT's reconstruction (vector C1). -/
theorem test_quantizer_table :
    let rows : List (Nat × List (Nat × BitVec 3)) :=
      [(16, [(0, 0), (4, 1), (8, 2), (12, 3), (17, 4), (21, 5), (25, 6), (29, 7)])]
    let P := { Params.voxDefault with quantizer := .table rows }
    quant P 14 16 = 3 ∧ quant P 16 16 = 3 ∧ quant P 17 16 = 4 ∧ quant P 4095 16 = 7 ∧ recon P 4 16 = 18 ∧
    voxQuant 16 16 = 4 := by decide
/-- RECON is a parameter of its own (R6): without the eighth of the step size, at step size 16, 0, 4, 8, 12, 16, 20, 24, 28; DEC 7 then moves PRED by 28. -/
theorem test_reconstruction_table :
    let rows : List (Nat × Vector Nat 8) := [(16, #v[0, 4, 4, 4, 4, 4, 4, 4])]
    let P := { Params.voxDefault with reconstruction := .table rows }
    ends (exec (.dec 7) { State.reset with params := P }) (fun t => t.result = 28) = true ∧ quant P 16 16 = 4 := by decide
/-- R93: a single byte at width 16 yields no output, and no write is issued. -/
theorem test_silent_block :
    ends (step { inCtl (.running .process) with cfgWidth := .w16, buf := [0x34] })
      (fun t => t.ctl = .running .readWait) = true := by decide
theorem test_assembler : assembleText "OPEN enc, 16" = some [0x10100000] ∧ assembleText "ENC -256" = some [0x3000FF00] ∧
    assembleText "NIN -4096" = some [0x5000F000] ∧ assembleText "NOUT 0x7FF" = some [0x600007FF] ∧
    assembleText "CONVERT dec, 8" = some [0x18080000, 0x70000000] ∧ assembleText "DEC 16" = none := by decide

/-! ## Witnesses: states and operands that meet the hypotheses of the statements -/

/-- MaskTableSelects, RefusedWordsOnlySetIll (b): a valid OP, at both ends of the range, that matches no row. -/
theorem witness_MaskTableSelects : State.reset.params.valid = true ∧
    (1 ≤ op 0x11000000 ∧ op 0x11000000 ≤ 7 ∧ rowMatches 0x11000000 = false) ∧
    (1 ≤ op 0x70000001 ∧ op 0x70000001 ≤ 7 ∧ rowMatches 0x70000001 = false) := by decide

/-- RefusedWordsOnlySetIll, IllIsSticky, FirstRefusalReason: each of (a) to (d), and words that are not refused. -/
theorem witness_refused : State.reset.params.valid = true ∧
    reservedOp 0 = true ∧ reservedOp 0x80000000 = true ∧ reservedOp 0x70000000 = false ∧ reservedOp 0x10000000 = false ∧
    rangeBroken State.reset 0x30000800 = true ∧ rangeBroken State.reset 0x300007FF = false ∧
    rangeBroken State.reset 0x6000F7FF = true ∧ rangeBroken State.reset 0x6000F800 = false ∧
    rangeBroken State.reset 0x50000100 = true ∧ rangeBroken State.reset 0x500000FF = false ∧
    rangeBroken wide 0x50000100 = false ∧
    runNotReady State.reset 0x70000000 = true ∧ runNotReady (inCtl .ready) 0x70000000 = false ∧
    refused State.reset 0x30010000 = true ∧ refused (inCtl (.running .process)) 0x20000000 = true ∧
    refused State.reset 0x20000000 = false ∧ refused (inCtl .ready) 0x70000000 = false := by decide

/-- FirstRefusalReason: every reason, where two apply the earlier one (R105; the refusal vectors). -/
theorem witness_FirstRefusalReason :
    refuseReason (inCtl (.running .readWait)) 0 = some .busy ∧
    refuseReason State.reset 0x80000001 = some .badOp ∧
    refuseReason State.reset 0x38000800 = some .reservedBits ∧
    refuseReason State.reset 0x30000800 = some .operandRange ∧
    refuseReason State.reset 0x70000000 = some .runNotReady ∧
    refuseReason State.reset 0x20000000 = none := by decide

/-- StepRunsDecodedCommand. -/
theorem witness_StepRunsDecodedCommand :
    let s := withInputs State.reset [.regWrite 32 State.reset.params.base 0x300007FF, .blockTurn]
    s.params.valid = true ∧ s.inputs = .regWrite 32 s.params.base 0x300007FF :: [.blockTurn] ∧
    decode 0x300007FF = .ok (.enc 0x07FF) := by decide

/-- InitWord: executed; refused for a bit, and for RUNNING. -/
theorem witness_InitWord : State.reset.params.valid = true ∧ op 0x20000000 = 2 ∧ op 0x28000000 = 2 ∧
    State.reset.isRunning = false ∧ (inCtl (.running .writeWait)).isRunning = true ∧
    (inCtl (.running .writeWait)).params.valid = true ∧
    BitVec.extractLsb' 0 28 (0x20000000 : Word) = 0 ∧ BitVec.extractLsb' 0 28 (0x28000000 : Word) ≠ 0 := by decide

/-- EncWord, NoutWord: the operand's two bounds and the first value outside each. -/
theorem witness_EncWord_NoutWord :
    op 0x3000F800 = 3 ∧ op 0x300007FF = 3 ∧ op 0x6000F800 = 6 ∧ op 0x600007FF = 6 ∧
    simm 0x3000F800 = -2048 ∧ simm 0x300007FF = 2047 ∧ simm 0x3000F7FF = -2049 ∧ simm 0x30000800 = 2048 ∧
    BitVec.extractLsb' 16 12 (0x3000F800 : Word) = 0 ∧ BitVec.extractLsb' 16 12 (0x60010000 : Word) ≠ 0 := by decide

/-- DecWord: code 15 is executed, bit 4 refuses. -/
theorem witness_DecWord : op 0x4000000F = 4 ∧ op 0x40000010 = 4 ∧
    BitVec.extractLsb' 4 24 (0x4000000F : Word) = 0 ∧ BitVec.extractLsb' 4 24 (0x40000010 : Word) ≠ 0 := by decide

/-- NinWord: both widths, the largest byte and the first value above it. -/
theorem witness_NinWord : op 0x500000FF = 5 ∧ op 0x50000100 = 5 ∧ State.reset.cfgWidth = .w8 ∧ wide.cfgWidth = .w16 ∧
    wide.params.valid = true ∧ wide.isRunning = false ∧
    BitVec.extractLsb' 8 8 (0x500000FF : Word) = 0 ∧ BitVec.extractLsb' 8 8 (0x50000100 : Word) ≠ 0 := by decide

/-- OpenWord: refused; the allocation cannot fail; it can, with each report and with none. -/
theorem witness_OpenWord : op 0x11000000 = 1 ∧ op 0x10000001 = 1 ∧ op 0x18FF0000 = 1 ∧
    BitVec.extractLsb' 24 3 (0x11000000 : Word) ≠ 0 ∧ BitVec.extractLsb' 0 16 (0x10000001 : Word) ≠ 0 ∧
    BitVec.extractLsb' 24 3 (0x18FF0000 : Word) = 0 ∧ BitVec.extractLsb' 0 16 (0x18FF0000 : Word) = 0 ∧
    State.reset.params.allocMayFail = false ∧
    ([none, some true, some false].all (fun r => (mayFail r).params.valid && (mayFail r).params.allocMayFail
      && !(mayFail r).isRunning && decide ((mayFail r).allocReport = r))) = true := by decide

/-- RunWord: READY, and each reason to refuse. -/
theorem witness_RunWord : op 0x70000000 = 7 ∧ op 0x78000000 = 7 ∧ (inCtl .ready).ctl = .ready ∧
    (inCtl .ready).params.valid = true ∧ BitVec.extractLsb' 0 28 (0x70000000 : Word) = 0 ∧
    State.reset.ctl ≠ .ready ∧ BitVec.extractLsb' 0 28 (0x78000000 : Word) ≠ 0 := by decide

/-- InitCompletes, DecCompletes, OpenCompletes (in each state but RUNNING), RunCompletes. -/
theorem witness_Completes :
    ([Ctl.idle, .ready, .done, .failed].all (fun c => !(inCtl c).isRunning)) = true ∧
    State.reset.params.allocMayFail = false ∧ (inCtl .ready).ctl = .ready := by decide

/-- EncCompletes, NoutCompletes: the operand's bounds. NinCompletes: both widths. -/
theorem witness_ImmCompletes : State.reset.isRunning = false ∧
    -2048 ≤ (0xF800 : BitVec 16).toInt ∧ (0xF800 : BitVec 16).toInt ≤ 2047 ∧
    -2048 ≤ (0x07FF : BitVec 16).toInt ∧ (0x07FF : BitVec 16).toInt ≤ 2047 ∧
    (0xFF : BitVec 16).toNat < 256 ∧ State.reset.cfgWidth = .w8 ∧ wide.cfgWidth = .w16 ∧ wide.isRunning = false := by decide

/-- RunningRefusesCommands: a running stream; and a step from it that is no answer and no reset. -/
theorem witness_RunningRefusesCommands :
    (inCtl (.running .process)).params.valid = true ∧ (inCtl (.running .process)).isRunning = true ∧
    (withInputs (inCtl (.running .readWait)) [.blockTurn]).isRunning = true ∧
    (withInputs (inCtl (.running .readWait)) [.blockTurn]).inputs.head? = some .blockTurn ∧
    (∃ t, step (withInputs (inCtl (.running .readWait)) [.blockTurn]) = .next t) :=
  ⟨by decide, by decide, by decide, by decide, exists_next (by decide)⟩

/-- PredictorSaturates, IndexAdapts: each branch, at its bound; the ends of the step table; both signs of a code. -/
theorem witness_update_branches : Params.voxDefault.valid = true ∧
    (Params.voxDefault.stepTable[(0 : BitVec 6).toNat]? = some 16 ∧
      Params.voxDefault.stepTable[(48 : BitVec 6).toNat]? = some 1552) ∧
    ((7 : Code).getLsbD 3 = false ∧ (8 : Code).getLsbD 3 = true) ∧
    (2046 + delta Params.voxDefault 0 16 > 2047 ∧ 2045 + delta Params.voxDefault 0 16 = 2047 ∧
      -2047 + delta Params.voxDefault 8 16 < -2048 ∧ -2046 + delta Params.voxDefault 8 16 = -2048) ∧
    BitVec.extractLsb' 0 3 (15 : Code) = BitVec.extractLsb' 0 3 (7 : Code) ∧
    (0 + Params.voxDefault.adaptTable[(0 : Fin 8)] < 0 ∧ 1 + Params.voxDefault.adaptTable[(0 : Fin 8)] = 0 ∧
      41 + Params.voxDefault.adaptTable[(7 : Fin 8)] > 48 ∧ 40 + Params.voxDefault.adaptTable[(7 : Fin 8)] = 48) := by decide

/-- QuantizerLevels: ss = 16, |delta| = 28, and the quarter steps k = 0 and k = 6 at their ends (vector C2). -/
theorem witness_QuantizerLevels : (1 ≤ 16 ∧ 16 + 16 / 2 + 16 / 4 ≤ 28) ∧ (1 ≤ 2 ∧ 6 ≤ 6 ∧ 2 * 2 * 6 ≤ 27 ∧ 27 < 2 * 2 * (6 + 1)) ∧
    (2 * 2 * 0 ≤ 0 ∧ 0 < 2 * 2 * (0 + 1)) ∧ voxQuant 28 16 = 7 ∧ voxQuant 27 16 = 6 ∧ voxQuant 0 16 = 0 ∧
    Params.voxDefault.quantizer = .successive := by decide

/-- ReconstructionBounds: two levels in order (vector C1). -/
theorem witness_ReconstructionBounds : (3 : BitVec 3).toNat ≤ (4 : BitVec 3).toNat ∧
    voxRecon 3 143 = 123 ∧ voxRecon 4 143 = 160 ∧ voxRecon 7 1552 = 2910 ∧
    Params.voxDefault.reconstruction = .bitSum := by decide

/-- EncoderDecoderAgree: the last of the steps, and the first. -/
theorem witness_EncoderDecoderAgree : 2 ≤ [256, -256].length ∧ 0 < 1 ∧ 1 ≤ [256, -256].length := by decide

/-- CodeCornerCases, CallsKeepBounds, UnsaturatedErrorBound: IDX at the table's ends. -/
theorem witness_idx : (48 : BitVec 6).toNat < 49 ∧ (48 : BitVec 6).toNat < Params.voxDefault.stepTable.length ∧
    Params.voxDefault.valid = true ∧ (2047 : BitVec 12).toInt = 2047 ∧ (2048 : BitVec 12).toInt = -2048 ∧
    4 ≤ (BitVec.extractLsb' 0 3 (4 : Code)).toNat ∧ (BitVec.extractLsb' 0 3 (11 : Code)).toNat ≤ 3 := by decide

/-- CodeCornerCases: a code that leaves PRED as it is, at the bound. -/
theorem witness_CodeCornerCases_fixed :
    (update Params.voxDefault { pred := 2047, idx := 0 } 0).pred = (2047 : BitVec 12) := by decide

/-- IndexSaturates: codes of level 7 with either sign, and of levels 3 and 0. -/
theorem witness_IndexSaturates : (∀ x ∈ ([7, 15] : List Code), x.extractLsb' 0 3 = 7) ∧
    (∀ x ∈ ([3, 11, 0, 8] : List Code), (x.extractLsb' 0 3).toNat ≤ 3) ∧ (48 : BitVec 6).toNat ≤ 48 := by decide

/-- UnsaturatedErrorBound: the largest delta that does not saturate, 30 + 2. -/
theorem witness_UnsaturatedErrorBound : State.reset.params = Params.voxDefault ∧ State.reset.isRunning = false ∧
    State.reset.idx.toNat < 49 ∧ -2048 ≤ (32 : BitVec 16).toInt ∧ (32 : BitVec 16).toInt ≤ 2047 ∧
    ((32 : BitVec 16).toInt - State.reset.pred.toInt).natAbs ≤
      voxRecon 7 (stepSize State.reset.params State.reset.idx) + stepSize State.reset.params State.reset.idx / 8 := by decide

/-- InwardNormalization, OutwardNormalization, NormalizerRoundTrips: values at the bounds (vectors N1 to N4, R83). -/
theorem witness_normalizers : Params.voxDefault.divMode = .truncate ∧ 1 ≤ Params.voxDefault.in16Div ∧
    toInternal8 Params.voxDefault 0 = -2048 ∧ toInternal8 Params.voxDefault 255 = 2032 ∧
    toInternal16 Params.voxDefault (-32768) = -2048 ∧ toInternal16 Params.voxDefault 32767 = 2047 ∧
    toInternal16 Params.voxDefault (-17) = -1 ∧
    fromInternal8 Params.voxDefault (-2048) = 64 ∧ fromInternal8 Params.voxDefault 2047 = 191 ∧
    (fromInternal16 Params.voxDefault (-2048)).toInt = -32768 ∧ (fromInternal16 Params.voxDefault 2047).toInt = 32752 ∧
    (16 : Int) ∣ 4096 ∧ ¬ (16 : Int) ∣ -100 := by decide

/-- NinResultFeedsEnc: both widths. -/
theorem witness_NinResultFeedsEnc : State.reset.params = Params.voxDefault ∧ wide.params = Params.voxDefault ∧
    wide.isRunning = false ∧ wide.ill = false ∧ State.reset.ill = false ∧
    (State.reset.cfgWidth = .w8 → (0xFF : BitVec 16).toNat < 256) ∧ (wide.cfgWidth = .w8 → (0x8000 : BitVec 16).toNat < 256) := by
  decide

/-- BlockCounts, BlockBoundaryFacts: full blocks at both widths, and a last block with an odd number of samples. -/
theorem witness_blocks :
    (∀ b ∈ ([[1, 2], [3, 4]] : List (List Byte)), b.length % (2 * widthBytes .w8) = 0) ∧
    (∀ b ∈ ([[1, 2, 3, 4]] : List (List Byte)), b.length % (2 * widthBytes .w16) = 0) ∧
    (5 : Nat) = (([[1, 2], [3, 4]] : List (List Byte)).flatten ++ [5]).length / widthBytes .w8 ∧
    ([1, 2] : List Byte).length % 2 = 0 := by decide

/-- The same block as W1's with big-endian samples, its bytes swapped in pairs (R37). -/
theorem test_big_endian :
    let P := { Params.voxDefault with sample16Order := .big }
    (encodeBlock P .w16 (initCodec P) [0, 0, 0x10, 0, 0xF0, 0, 0, 0x64]).1 = [0x07, 0xF2] ∧
    (decodeBlock P .w16 (initCodec P) [0x07, 0xF2]).1 = [0, 0x20, 2, 0, 0xFE, 0x10, 0, 0xE0] := by decide

/-- OddBlockPadding: both readings of I5 (byte 0 is −2048 at width 8, and 0 at width 16), a block with an odd and one with an even number
of samples. -/
theorem witness_OddBlockPadding : Params.voxDefault.padDomain = .working ∧
    ({ Params.voxDefault with padDomain := .external } : Params).padDomain = .external ∧
    padding { Params.voxDefault with padDomain := .external } .w8 = -2048 ∧
    padding { Params.voxDefault with padDomain := .external } .w16 = 0 ∧
    ((externalSamples Params.voxDefault .w8 [0x80]).map (toInternal Params.voxDefault .w8)).length % 2 = 1 ∧
    ((externalSamples Params.voxDefault .w16 [1, 2, 3, 4]).map (toInternal Params.voxDefault .w16)).length % 2 = 0 := by decide

/-- RequestSizes, with R94's four numbers. -/
theorem witness_RequestSizes : (inCtl (.running .readWait)).ctl = .running .readWait ∧
    outstanding (inCtl (.running .readWait)) = some (.streamRead 1024) ∧
    outstanding (wide.withCtl (.running .readWait)) = some (.streamRead 2048) ∧
    outstanding { inCtl (.running .readWait) with cfgDir := .decode } = some (.streamRead 512) := by decide

/-- ReadAnswerEffects: every clause, at the lengths where they meet (a request of 2 bytes). -/
def smallReads (s : State) : State := { s with params := { s.params with blockSamples := 2 } }

theorem witness_ReadAnswerEffects :
    let s := smallReads (inCtl (.running .readWait))
    let t := smallReads (strict (.running .readWait))
    s.params.valid = true ∧ t.params.valid = true ∧ s.ctl = .running .readWait ∧ State.reset.ctl ≠ .running .readWait ∧
    reqBytes s = 2 ∧ reqBytes s < ([1, 2, 3] : List Byte).length ∧ ([1, 2] : List Byte).length = reqBytes s ∧
    (([1] : List Byte).length < reqBytes s ∧ s.params.shortReadIsError = false) ∧
    (([1] : List Byte).length < reqBytes t ∧ t.params.shortReadIsError = true) ∧
    stopOf (step (withInputs s [.readAnswer (.ok [1, 2, 3])])) = some .overlongAnswer ∧
    stopOf (step (withInputs State.reset [.readAnswer .fail])) = some .unsolicitedAnswer := by decide

/-- WriteAnswerEffects. -/
theorem witness_WriteAnswerEffects :
    let s := { withInputs (inCtl (.running .writeWait)) [.writeAnswer .ok] with buf := [7] }
    s.params.valid = true ∧ s.inputs = .writeAnswer .ok :: [] ∧ s.ctl = .running .writeWait ∧
    State.reset.ctl ≠ .running .writeWait ∧ ends (step s) (fun t => t.output = [7] && t.ctl = .running .readWait) = true := by
  decide

/-- OwnMovesAndReports: an empty block and one that is not, with no event and with the block's turn; a state that waits; a report. -/
theorem witness_OwnMovesAndReports :
    let s := { wide.withCtl (.running .process) with buf := [0x34] }
    let t := withInputs { wide.withCtl (.running .process) with buf := [0x34, 0] } [.blockTurn]
    s.params.valid = true ∧ s.inputs = [] ∧ s.ctl = .running .process ∧
    (encodeBlock s.params s.cfgWidth { pred := s.pred, idx := s.idx } s.buf).1 = [] ∧
    t.params.valid = true ∧ t.inputs = .blockTurn :: [] ∧ t.ctl = .running .process ∧
    (encodeBlock t.params t.cfgWidth { pred := t.pred, idx := t.idx } t.buf).1 ≠ [] ∧
    State.reset.ctl ≠ .running .process ∧
    (withInputs State.reset [.allocReport true]).inputs = .allocReport true :: [] := by decide

/-- ControllerFollowsTable, StreamsOnlyGrow: a step that changes CTL, and one that does not. -/
theorem witness_steps : (∃ t, step ((inCtl .ready).commanded 0x70000000) = .next t ∧ decide (t.ctl ≠ .ready) = true) ∧
    (∃ t, step State.reset = .next t ∧ decide (t = State.reset) = true) :=
  ⟨exists_next_and (by decide), exists_next_and (by decide)⟩

/-- StreamRunsToDone: two blocks, one of which yields no output (program P-like, width 16). -/
theorem witness_StreamRunsToDone :
    let s := { wide.withCtl .ready with
      inputs := .regWrite 32 0 0x70000000 :: (streamEvents .encode .w16 [[0, 0, 0, 0x10], [5]] ++ [.blockTurn]) }
    s.params.valid = true ∧ s.params.shortReadIsError = false ∧ s.ctl = .ready ∧
    (∀ b ∈ ([[0, 0, 0, 0x10], [5]] : List (List Byte)), b ≠ [] ∧ b.length ≤ reqBytes s) ∧
    s.inputs = .regWrite 32 s.params.base 0x70000000 ::
      (streamEvents s.cfgDir s.cfgWidth [[0, 0, 0, 0x10], [5]] ++ [.blockTurn]) := by decide

/-- BusErrorExactly, StatusReads, CodecReads, ResultReads: the accesses, and the faults (vectors X1 to X6). -/
theorem witness_accesses :
    (withInputs State.reset [.regRead 32 (State.reset.params.base + 4)]).params.valid = true ∧
    (withInputs State.reset [.regRead 32 (State.reset.params.base + 4)]).isRunning = false ∧
    (inCtl (.running .process)).isRunning = true ∧
    ends (step (withInputs (withPair 14 15) [.regRead 32 12])) (fun t => t.replies = [0x000F000E]) = true ∧
    ends (step (withInputs (inCtl .done) [.regRead 32 8])) (fun t => t.replies = [3]) = true ∧
    ends (step (withInputs (inCtl (.running .process)) [.regRead 32 4])) (fun t => t.draws = 1 && t.replies.length = 1) = true ∧
    ([(32, 0), (16, 4), (8, 8), (32, 2), (32, 16)].all (fun (a : Nat × Nat) =>
      stopOf (step (withInputs State.reset [.regRead a.1 a.2])) = some .busError)) = true ∧
    ([(32, 4), (32, 8), (32, 12), (16, 0), (32, 16)].all (fun (a : Nat × Nat) =>
      stopOf (step (withInputs State.reset [.regWrite a.1 a.2 0x20000000])) = some .busError)) = true := by decide

/-- IllIsSticky: a step that is no reset from a state with ILL set, and a reset from one. -/
theorem witness_IllIsSticky :
    (∃ t, step { State.reset with ill := true } = .next t ∧ t.ill = true) ∧
    (∃ t, step (withInputs { State.reset with ill := true } [.reset]) = .next t ∧ (!t.ill) = true) :=
  ⟨exists_next_and (by decide), exists_next_and (by decide)⟩

/-- RegisterWriters: each premise, met by a step: the configuration, RESULT, PRED, ERR by an answer, ILL, BUF. -/
theorem witness_RegisterWriters :
    (∃ t, step (State.reset.commanded 0x180C0000) = .next t ∧
      (decide (t.cfgDir ≠ State.reset.cfgDir) && decide (t.fallback ≠ State.reset.fallback)) = true) ∧
    (∃ t, step (State.reset.commanded 0x60000000) = .next t ∧ decide (t.result ≠ State.reset.result) = true) ∧
    (∃ t, step { inCtl (.running .process) with buf := [0xFF] } = .next t ∧ decide (t.pred ≠ 0) = true) ∧
    (∃ t, step (withInputs (inCtl (.running .readWait)) [.readAnswer .fail]) = .next t ∧ decide (t.err = .io) = true) ∧
    (∃ t, step (State.reset.commanded 0) = .next t ∧ t.ill = true) ∧
    (∃ t, step (withInputs (inCtl (.running .readWait)) [.readAnswer (.ok [7])]) = .next t ∧ decide (t.buf ≠ []) = true) :=
  ⟨exists_next_and (by decide), exists_next_and (by decide), exists_next_and (by decide), exists_next_and (by decide),
    exists_next_and (by decide), exists_next_and (by decide)⟩

/-- StepKeepsInvariant: the state after reset with RUN about to be written in READY. -/
theorem witness_StepKeepsInvariant :
    Inv ((inCtl .ready).commanded 0x70000000) ∧ ∃ t, step ((inCtl .ready).commanded 0x70000000) = .next t :=
  ⟨⟨by decide, by decide, by decide, by decide, by decide, by decide, by decide⟩, exists_next (by decide)⟩

/-- ResetValues: a reset of a running machine. -/
theorem witness_ResetValues :
    let s := withInputs (inCtl (.running .writeWait)) [.reset]
    s.params.valid = true ∧ s.inputs = .reset :: [] := by decide

/-- BufNeverObservable: two states that differ in BUF. -/
theorem witness_BufNeverObservable :
    { State.reset with buf := [1] } ≠ State.reset ∧ forgetBuf { State.reset with buf := [1] } = forgetBuf State.reset := by decide

/-- InstancesIndependent: the second of two instances takes a step. -/
theorem witness_InstancesIndependent :
    ∃ after, stepAt (1 : Fin 2) #v[State.reset, State.reset.commanded 0x40000007] = .next after := by
  obtain ⟨t, h⟩ := exists_next (o := step (State.reset.commanded 0x40000007)) (by decide)
  refine ⟨#v[State.reset, State.reset.commanded 0x40000007].set (1 : Fin 2) t, ?_⟩
  simp only [stepAt]
  rw [show #v[State.reset, State.reset.commanded 0x40000007][(1 : Fin 2)] = State.reset.commanded 0x40000007 from rfl, h]

/-- UnansweredRequestHangs: an outstanding read. -/
theorem witness_UnansweredRequestHangs : (inCtl (.running .readWait)).params.valid = true ∧
    (inCtl (.running .readWait)).inputs = [] ∧ (inCtl (.running .readWait)).ctl ≠ .running .process := by decide

/-- AssemblerEmitsCommands: each range at both ends, and outside it. -/
theorem witness_AssemblerEmitsCommands :
    (AsmLine.enc (-2048)).words = some [0x3000F800] ∧ (AsmLine.enc 2048).words = none ∧
    (AsmLine.nout 2047).words = some [0x600007FF] ∧ (AsmLine.nout (-2049)).words = none ∧
    (AsmLine.dec 15).words = some [0x4000000F] ∧ (AsmLine.dec (-1)).words = none ∧
    (AsmLine.nin 65535).words = some [0x5000FFFF] ∧ (AsmLine.nin 65536).words = none ∧
    (AsmLine.nin (-32768)).words = some [0x50008000] ∧ (AsmLine.nin (-32769)).words = none ∧
    (AsmLine.openStream .encode 0).words = some [0x10000000] ∧ (AsmLine.openStream .encode 256).words = none ∧
    (AsmLine.openStream .decode 255).words = some [0x18FF0000] ∧ (AsmLine.convert .encode (-1)).words = none ∧
    (AsmLine.convert .decode 255).words = some [0x18FF0000, 0x70000000] := by decide

end Sys2Proof.Tests
end

section
/-! SUPPORT. The step as a function of the event it takes, the register window, and the commands as outcomes: rules that the statements
about the machine's state are proved from. -/

namespace Sys2Proof.Machine

open Sys2Proof.Claims

/-! ## The parameters -/

/-- R7 bounds TABLE_SIZE by the 6 bits of IDX. -/
theorem tableSize_mem_of_valid {P : Params} (h : P.valid = true) : 1 ≤ P.tableSize ∧ P.tableSize ≤ 64 := by
  simp only [Params.valid, Bool.and_eq_true, decide_eq_true_eq] at h
  omega

theorem initialIndex_lt_of_valid {P : Params} (h : P.valid = true) : P.initialIndex < P.tableSize := by
  simp only [Params.valid, Bool.and_eq_true, decide_eq_true_eq] at h
  omega

theorem blockSamples_even_of_valid {P : Params} (h : P.valid = true) : P.blockSamples % 2 = 0 := by
  simp only [Params.valid, Bool.and_eq_true, decide_eq_true_eq] at h
  omega

/-! ## One step, by the event it takes -/

/-- The outcome of what a step finds: the command executed, or the outcome itself. -/
def Fetched.outcome : Fetched → Host.Outcome State Fault Refusal
  | .command i t => exec i t
  | .moved o => o

@[simp] theorem Fetched.outcome_command (i : Instr) (t : State) : (Fetched.command i t).outcome = exec i t := rfl
@[simp] theorem Fetched.outcome_moved (o : Host.Outcome State Fault Refusal) : (Fetched.moved o).outcome = o := rfl

theorem step_eq_outcome (s : State) : step s = (fetch s).outcome := by
  unfold step
  cases fetch s <;> rfl

theorem step_of_invalid {s : State} (h : s.params.valid = false) : step s = .refused .invalidParameters := by
  simp [step_eq_outcome, fetch, h]

theorem step_of_nil {s : State} (hv : s.params.valid = true) (hi : s.inputs = []) : step s = .next s.blockMove := by
  simp [step_eq_outcome, fetch, hv, hi]

theorem step_of_cons {s : State} {e : Event} {rest : List Event} (hv : s.params.valid = true)
    (hi : s.inputs = e :: rest) : step s = (deliver e { s with inputs := rest }).outcome := by
  simp [step_eq_outcome, fetch, hv, hi]

/-! ## The register window (R33) -/

theorem regAt_eq_cmd {P : Params} {addr : Nat} : regAt P addr = some .cmd ↔ addr = P.base := by
  unfold regAt
  split_ifs <;> simp_all

@[simp] theorem regAt_result (P : Params) : regAt P (P.base + 4) = some .result := by simp [regAt]
@[simp] theorem regAt_status (P : Params) : regAt P (P.base + 8) = some .status := by simp [regAt]
@[simp] theorem regAt_codec (P : Params) : regAt P (P.base + 12) = some .codec := by simp [regAt]

/-- A write reaches CMD exactly when it is 32 bits wide and at BASE (R34). -/
theorem writesCmd_iff {P : Params} {width addr : Nat} : writesCmd P width addr = true ↔ width = 32 ∧ addr = P.base := by
  simp [writesCmd, regAt_eq_cmd]

theorem deliver_regRead {width addr : Nat} {s t : State} {v : Word} (h : readRegister width addr s = some (v, t)) :
    deliver (.regRead width addr) s = .moved (.next (t.reply v)) := by
  simp [deliver, h]

theorem deliver_cmd_of_ok {s : State} {w : Word} {i : Instr} (h : decode w = .ok i) :
    deliver (.regWrite 32 s.params.base w) s = .command i s := by
  simp [deliver, writesCmd_iff.2, h]

theorem deliver_cmd_of_error {s : State} {w : Word} {r : RefuseReason} (h : decode w = .error r) :
    deliver (.regWrite 32 s.params.base w) s = .moved (.next s.refuse) := by
  simp [deliver, writesCmd_iff.2, h]

theorem readRegister_status (s : State) : readRegister 32 (s.params.base + 8) s = some (statusWord s, s) := by
  simp [readRegister]

theorem readRegister_codec (s : State) : readRegister 32 (s.params.base + 12) s =
    some (if s.isRunning then s.drawWord else (codecWord s, s)) := by
  simp [readRegister]

theorem readRegister_result (s : State) : readRegister 32 (s.params.base + 4) s =
    some (if s.isRunning then s.drawWord else (s.result, s)) := by
  simp [readRegister]

/-- A step that reads a register replies with its value (R34). -/
theorem step_regRead {s t : State} {width addr : Nat} {rest : List Event} {v : Word} (hv : s.params.valid = true)
    (hi : s.inputs = .regRead width addr :: rest)
    (hr : readRegister width addr { s with inputs := rest } = some (v, t)) : step s = .next (t.reply v) := by
  rw [step_of_cons hv hi, deliver_regRead hr, Fetched.outcome_moved]

end Sys2Proof.Machine
end

section
/-! SUPPORT. What a read of STATUS, CODEC and RESULT returns (R27, R28, R30, R114), and the command that a write to CMD runs (R29). -/

namespace Sys2Proof.Proofs

open Sys2Proof.Machine Sys2Proof.Claims

/-! ## The fields of a packed word -/

/-- The lowest field of a word packed from its fields, at the start it has after those below it are taken off. -/
theorem extractLsb'_append_lowest {n l k : Nat} (above : BitVec n) (field : BitVec l) (h : k = 0) :
    (above ++ field).extractLsb' k l = field := by
  rw [h, BitVec.extractLsb'_append_eq_right]

/-- The fields of STATUS, from bit 0 up (R27). -/
theorem statusWord_fields (s : State) :
    (statusWord s).extractLsb' 0 3 = s.ctl.code ∧ (statusWord s).extractLsb' 3 1 = 0 ∧
    (statusWord s).extractLsb' 4 2 = s.err.code ∧ (statusWord s).extractLsb' 6 2 = 0 ∧
    (statusWord s).extractLsb' 8 1 = BitVec.ofBool s.fallback ∧ (statusWord s).extractLsb' 9 1 = BitVec.ofBool s.ill ∧
    (statusWord s).extractLsb' 10 6 = 0 ∧ (statusWord s).extractLsb' 16 1 = s.cfgDir.bit ∧
    (statusWord s).extractLsb' 17 1 = w16Bit s.cfgWidth ∧ (statusWord s).extractLsb' 18 14 = 0 := by
  have packed : ∀ k l, (statusWord s).extractLsb' k l =
      ((0 : BitVec 14) ++ w16Bit s.cfgWidth ++ s.cfgDir.bit ++ (0 : BitVec 6) ++ BitVec.ofBool s.ill
        ++ BitVec.ofBool s.fallback ++ (0 : BitVec 2) ++ s.err.code ++ (0 : BitVec 1) ++ s.ctl.code :
        BitVec (14 + 1 + 1 + 6 + 1 + 1 + 2 + 2 + 1 + 3)).extractLsb' k l := fun _ _ => rfl
  simp (disch := decide) only [packed, extractLsb'_append_lowest, BitVec.extractLsb'_append_eq_of_le, true_and]
  rfl

/-- The fields of CODEC, from bit 0 up (R28). -/
theorem codecWord_fields (s : State) :
    (codecWord s).extractLsb' 0 12 = s.pred ∧ (codecWord s).extractLsb' 12 4 = 0 ∧
    (codecWord s).extractLsb' 16 6 = s.idx ∧ (codecWord s).extractLsb' 22 10 = 0 := by
  have packed : ∀ k l, (codecWord s).extractLsb' k l =
      ((0 : BitVec 10) ++ s.idx ++ (0 : BitVec 4) ++ s.pred : BitVec (10 + 6 + 4 + 12)).extractLsb' k l := fun _ _ => rfl
  simp (disch := decide) only [packed, extractLsb'_append_lowest, BitVec.extractLsb'_append_eq_of_le, true_and]
  rfl

/-- A bit of a word is the field of width 1 there. -/
theorem getLsbD_of_field {n k : Nat} {w : BitVec n} {b : Bool} (h : w.extractLsb' k 1 = BitVec.ofBool b) :
    w.getLsbD k = b := by
  simpa using congrArg (fun v => BitVec.getLsbD v 0) h

theorem ctlCode_toNat (c : Ctl) : c.code.toNat = ctlNumber c := by cases c <;> rfl

theorem errCode_toNat (e : Err) : e.code.toNat = errNumber e := by cases e <;> rfl

theorem dirBit_eq_ofBool (d : Dir) : d.bit = BitVec.ofBool (decide (d = .decode)) := by cases d <;> rfl

theorem w16Bit_eq_ofBool (w : Width) : w16Bit w = BitVec.ofBool (decide (w = .w16)) := by cases w <;> rfl

/-! ## The reads -/

/-- Settles O47: the word that a read of STATUS returns is `statusWord`, whose fields are R27's. -/
theorem statusReads : Obligations.StatusReads := by
  refine ⟨fun s rest hv hi => ?_, by decide⟩
  refine ⟨statusWord s, step_regRead hv hi (readRegister_status { s with inputs := rest }), ?_⟩
  obtain ⟨hctl, h3, herr, h6, hfallback, hill, h10, hdir, hwidth, h18⟩ := statusWord_fields s
  exact ⟨by rw [hctl, ctlCode_toNat], getLsbD_of_field (b := false) h3, by rw [herr, errCode_toNat], h6,
    getLsbD_of_field hfallback, getLsbD_of_field hill, h10, getLsbD_of_field (hdir.trans (dirBit_eq_ofBool _)),
    getLsbD_of_field (hwidth.trans (w16Bit_eq_ofBool _)), h18⟩

/-- Outside RUNNING a read of RESULT or CODEC returns `v` with no side effect; while RUNNING it is a draw (R114). -/
theorem step_regRead_unless_running {s : State} {addr : Nat} {rest : List Event} {v : Word} (hv : s.params.valid = true)
    (hi : s.inputs = .regRead 32 addr :: rest)
    (hr : readRegister 32 addr { s with inputs := rest } =
      some (if s.isRunning then { s with inputs := rest : State }.drawWord else (v, { s with inputs := rest }))) :
    (s.isRunning = false → step s = .next { s with inputs := rest, replies := s.replies ++ [v] }) ∧
    (s.isRunning = true → ∃ v : Word, step s = .next { s with
      inputs := rest, replies := s.replies ++ [v], draws := s.draws + 1 }) := by
  constructor
  · intro h
    rw [h] at hr
    exact step_regRead hv hi hr
  · intro h
    rw [h] at hr
    exact ⟨_, step_regRead hv hi hr⟩

/-- Settles O48: a read of CODEC returns `codecWord`, whose fields are R28's, or a draw while RUNNING. -/
theorem codecReads : Obligations.CodecReads := by
  refine ⟨fun s rest hv hi => ?_, rfl, rfl⟩
  obtain ⟨hidle, hrunning⟩ := step_regRead_unless_running hv hi (readRegister_codec { s with inputs := rest })
  exact ⟨fun h => ⟨codecWord s, hidle h, codecWord_fields s⟩, hrunning⟩

/-- Settles O49: a read of RESULT returns it, or a draw while RUNNING. -/
theorem resultReads : Obligations.ResultReads := fun s rest hv hi =>
  step_regRead_unless_running hv hi (readRegister_result { s with inputs := rest })

/-! ## The command that a write to CMD runs -/

theorem step_cmd_of_ok {s : State} {w : Word} {i : Instr} {rest : List Event} (hv : s.params.valid = true)
    (hi : s.inputs = .regWrite 32 s.params.base w :: rest) (hd : decode w = .ok i) :
    step s = exec i { s with inputs := rest } := by
  rw [step_of_cons hv hi]
  exact congrArg Fetched.outcome (deliver_cmd_of_ok (s := { s with inputs := rest }) hd)

/-- Settles O6: `withFetchWord` of a word's number places that word. -/
theorem stepRunsDecodedCommand : Obligations.StepRunsDecodedCommand := by
  refine ⟨fun s w i rest hv hi hd => step_cmd_of_ok hv hi hd, fun s w i hv hd => ?_⟩
  have hw : s.withFetchWord 32 w.toNat = s.commanded w := by
    rw [State.withFetchWord, Nat.mod_eq_of_lt w.isLt, BitVec.ofNat_toNat, BitVec.setWidth_eq]
  rw [hw]
  exact step_cmd_of_ok hv rfl hd

end Sys2Proof.Proofs
end

section
/-! SUPPORT. Which words the block refuses (R51), said of the decoder and of the commands' effects. -/

namespace Sys2Proof.Proofs

open Sys2Proof.Machine Sys2Proof.Claims

/-! ## Decoded words -/

theorem selectRow_eq_ok {w mask pattern : Word} {i j : Instr} :
    selectRow w mask pattern i = .ok j ↔ w &&& mask = pattern ∧ j = i := by
  unfold selectRow
  split <;> simp_all [eq_comm]

/-- The command of a word, by its OP (R47), whose row the word matches (R48). -/
theorem decode_ok_cases {w : Word} {i : Instr} (h : decode w = .ok i) : rowMatches w = true ∧
    ((op w = 1 ∧ i = .openStream (dirField w) (widField w)) ∨ (op w = 2 ∧ i = .init) ∨
     (op w = 3 ∧ i = .enc (immField w)) ∨ (op w = 4 ∧ i = .dec (w.extractLsb' 0 4)) ∨
     (op w = 5 ∧ i = .nin (immField w)) ∨ (op w = 6 ∧ i = .nout (immField w)) ∨ (op w = 7 ∧ i = .run)) := by
  unfold decode at h
  rw [show (opField w).toNat = op w from rfl] at h
  split at h
  case h_8 => cases h
  all_goals
    rename_i hop
    obtain ⟨hrow, rfl⟩ := selectRow_eq_ok.1 h
    refine ⟨by simp only [rowMatches, hrow, decide_true, Bool.or_true, Bool.true_or], ?_⟩
    simp [hop]

/-- A word that matches a row of R48 decodes to that row's command. -/
theorem exists_decode_of_rowMatches {w : Word} (h : rowMatches w = true) : ∃ i, decode w = .ok i := by
  simp only [rowMatches, Bool.or_eq_true, decide_eq_true_eq, or_assoc] at h
  rcases h with h | h | h | h | h | h | h
  · obtain ⟨hop, hzero⟩ := (mask_openStream w).1 h
    exact ⟨_, (decode_openStream hop).trans (if_pos hzero)⟩
  · obtain ⟨hop, hzero⟩ := (mask_all w 2).1 h
    exact ⟨_, (decode_init hop).trans (if_pos hzero)⟩
  · obtain ⟨hop, hzero⟩ := (mask_imm w 3).1 h
    exact ⟨_, (decode_enc hop).trans (if_pos hzero)⟩
  · obtain ⟨hop, hzero⟩ := (mask_dec w).1 h
    exact ⟨_, (decode_dec hop).trans (if_pos hzero)⟩
  · obtain ⟨hop, hzero⟩ := (mask_imm w 5).1 h
    exact ⟨_, (decode_nin hop).trans (if_pos hzero)⟩
  · obtain ⟨hop, hzero⟩ := (mask_imm w 6).1 h
    exact ⟨_, (decode_nout hop).trans (if_pos hzero)⟩
  · obtain ⟨hop, hzero⟩ := (mask_all w 7).1 h
    exact ⟨_, (decode_run hop).trans (if_pos hzero)⟩

/-- A reserved OP (R47) matches no row. -/
theorem reservedOp_of_rowMatches {w : Word} (h : rowMatches w = true) : reservedOp w = false := by
  obtain ⟨i, hi⟩ := exists_decode_of_rowMatches h
  have hop := (decode_ok_cases hi).2
  simp only [reservedOp, Bool.or_eq_false_iff, decide_eq_false_iff_not]
  omega

/-! ## Effects and refusals -/

/-- What a command needs of the state, outside RUNNING: its operand in range (R49), and READY for RUN (R50). -/
def Accepts (i : Instr) (s : State) : Prop :=
  match i with
  | .openStream _ _ => True
  | .init => True
  | .enc imm => (sampleOperand imm).isSome
  | .dec _ => True
  | .nin imm => (externalOperand s.cfgWidth imm).isSome
  | .nout imm => (sampleOperand imm).isSome
  | .run => s.ctl = .ready

/-- A command takes effect exactly where it is not BUSY and gets what it needs (R100). -/
theorem exists_effectOf_ok_iff {i : Instr} {s : State} :
    (∃ t, effectOf i s = .ok t) ↔ s.isRunning = false ∧ Accepts i s := by
  constructor
  · rintro ⟨t, h⟩
    obtain ⟨hrun, hleaves⟩ := effectOf_ok h
    refine ⟨hrun, ?_⟩
    cases i with
    | openStream dir wid => trivial
    | init => trivial
    | enc imm => obtain ⟨x, hx, -⟩ := hleaves; simp [Accepts, hx]
    | dec code => trivial
    | nin imm => obtain ⟨x, hx, -⟩ := hleaves; simp [Accepts, hx]
    | nout imm => obtain ⟨x, hx, -⟩ := hleaves; simp [Accepts, hx]
    | run => exact hleaves.1
  · rintro ⟨hrun, haccepts⟩
    cases i with
    | openStream dir wid => simp [effectOf, openEffect, gate_some hrun]
    | init => simp [effectOf, initEffect, gate_some hrun]
    | enc imm =>
      obtain ⟨x, hx⟩ := Option.isSome_iff_exists.1 haccepts
      simp [effectOf, encEffect, hx, gate_some hrun]
    | dec code => simp [effectOf, decEffect, gate_some hrun]
    | nin imm =>
      obtain ⟨x, hx⟩ := Option.isSome_iff_exists.1 haccepts
      simp [effectOf, ninEffect, hx, gate_some hrun]
    | nout imm =>
      obtain ⟨x, hx⟩ := Option.isSome_iff_exists.1 haccepts
      simp [effectOf, noutEffect, hx, gate_some hrun]
    | run => simp [effectOf, runEffect, gate_some hrun, show s.ctl = .ready from haccepts]

theorem isSome_sampleOperand (imm : BitVec 16) : (sampleOperand imm).isSome = is12 imm.toInt := by
  simp only [sampleOperand, is12, ← Bool.decide_and]
  split <;> simp_all

theorem isSome_externalOperand (width : Width) (imm : BitVec 16) :
    (externalOperand width imm).isSome = !(decide (width = .w8) && decide (imm.extractLsb' 8 8 ≠ 0)) := by
  cases width with
  | w8 =>
    simp only [externalOperand]
    split <;> simp_all
  | w16 => rfl

/-- A decoded command gets what it needs exactly where its word breaks neither R49 nor R50. -/
theorem accepts_iff_of_decode {w : Word} {i : Instr} (h : decode w = .ok i) (s : State) :
    Accepts i s ↔ rangeBroken s w = false ∧ runNotReady s w = false := by
  have himm : (immField w).extractLsb' 8 8 = w.extractLsb' 8 8 := BitVec.extractLsb'_extractLsb'_of_le (by decide)
  have hsimm : (immField w).toInt = simm w := rfl
  obtain ⟨-, hi⟩ := decode_ok_cases h
  rcases hi with ⟨hop, rfl⟩ | ⟨hop, rfl⟩ | ⟨hop, rfl⟩ | ⟨hop, rfl⟩ | ⟨hop, rfl⟩ | ⟨hop, rfl⟩ | ⟨hop, rfl⟩
  case inr.inr.inr.inr.inl => simp [Accepts, rangeBroken, runNotReady, hop, isSome_externalOperand, himm, imp_iff_not_or]
  all_goals simp [Accepts, rangeBroken, runNotReady, hop, isSome_sampleOperand, hsimm]

/-- A word is not refused exactly where it decodes to a command that takes effect (R51). -/
theorem refused_eq_false_iff {s : State} {w : Word} :
    refused s w = false ↔ ∃ i t, decode w = .ok i ∧ effectOf i s = .ok t := by
  simp only [refused, Bool.or_eq_false_iff, Bool.not_eq_eq_eq_not, Bool.not_false]
  constructor
  · rintro ⟨⟨⟨⟨hrun, -⟩, hrow⟩, hrange⟩, hready⟩
    obtain ⟨i, hi⟩ := exists_decode_of_rowMatches hrow
    obtain ⟨t, ht⟩ := exists_effectOf_ok_iff.2 ⟨hrun, (accepts_iff_of_decode hi s).2 ⟨hrange, hready⟩⟩
    exact ⟨i, t, hi, ht⟩
  · rintro ⟨i, t, hi, ht⟩
    obtain ⟨hrun, haccepts⟩ := exists_effectOf_ok_iff.1 ⟨t, ht⟩
    obtain ⟨hrange, hready⟩ := (accepts_iff_of_decode hi s).1 haccepts
    have hrow := (decode_ok_cases hi).1
    exact ⟨⟨⟨⟨hrun, reservedOp_of_rowMatches hrow⟩, hrow⟩, hrange⟩, hready⟩

end Sys2Proof.Proofs
end

section
/-! SUPPORT. Which steps write which register (R14 to R18, R23 to R26). -/

namespace Sys2Proof.Proofs

open Sys2Proof.Machine Sys2Proof.Claims

/-! ## Executed commands and register reads -/

/-- What OPEN leaves, the allocation's outcome and the model's own fields aside (R90, R92). -/
theorem leaves_openStream {dir : Dir} {wid : BitVec 8} {s t : State} (h : Leaves (.openStream dir wid) s t) :
    ∃ report count,
      t = { s.configured dir wid with allocReport := report, draws := count, ctl := .ready } ∨
      (s.params.allocMayFail = true ∧
        t = { s.configured dir wid with allocReport := report, draws := count, ctl := .failed, err := .alloc }) := by
  have hmay : (s.configured dir wid).allocateBuffer.1 = false → s.params.allocMayFail = true := by
    intro hfail
    by_contra hcannot
    rw [allocateBuffer_of_cannot_fail (by simpa using hcannot)] at hfail
    cases hfail
  have hstate : ∃ report count, (s.configured dir wid).allocateBuffer.2 =
      { s.configured dir wid with allocReport := report, draws := count } := by
    rcases allocateBuffer_state (s.configured dir wid) with h | h | h <;> exact ⟨_, _, h⟩
  obtain ⟨report, count, hstate⟩ := hstate
  refine ⟨report, count, ?_⟩
  simp only [Leaves, hstate] at h
  split at h
  · exact .inl h
  · exact .inr ⟨hmay (Bool.eq_false_iff.2 ‹_›), h⟩

/-- No command writes ILL where it is executed, nor BUF (R25, R26). -/
theorem leaves_ill_buf {i : Instr} {s t : State} (h : Leaves i s t) : t.ill = s.ill ∧ t.buf = s.buf := by
  cases i with
  | openStream dir wid => obtain ⟨_, _, rfl | ⟨-, rfl⟩⟩ := leaves_openStream h <;> simp
  | init => subst h; simp
  | enc imm => obtain ⟨x, -, rfl⟩ := h; simp
  | dec code => subst h; simp
  | nin imm => obtain ⟨x, -, rfl⟩ := h; simp
  | nout imm => obtain ⟨x, -, rfl⟩ := h; simp
  | run => obtain ⟨-, rfl⟩ := h; simp

/-- A register read changes at most the count of free values (R34, R114). -/
theorem readRegister_state {width addr : Nat} {s t : State} {v : Word} (h : readRegister width addr s = some (v, t)) :
    t = { s with draws := t.draws } := by
  obtain ⟨-, ⟨-, -, rfl⟩ | ⟨-, -, -, rfl⟩ | ⟨-, -, -, rfl⟩ | ⟨-, -, hdraw⟩⟩ := readRegister_cases h
  · rfl
  · rfl
  · rfl
  · obtain ⟨-, rfl⟩ := Prod.mk.inj hdraw
    rfl

/-! ## A write to CMD: refused, or executed -/

theorem refused_eq_true_iff {s : State} {w : Word} :
    refused s w = true ↔ ∀ i, decode w = .ok i → ∀ t, effectOf i s ≠ .ok t := by
  rw [← Bool.not_eq_false, refused_eq_false_iff]
  simp

/-- A refused word written to CMD sets ILL and does nothing else (R51, R100). -/
theorem step_cmd_of_refused {s : State} {w : Word} {rest : List Event} (hv : s.params.valid = true)
    (hi : s.inputs = .regWrite 32 s.params.base w :: rest) (href : refused s w = true) :
    step s = .next { s with inputs := rest, ill := true } := by
  cases hd : decode w with
  | error r =>
    rw [step_of_cons hv hi]
    exact congrArg Fetched.outcome (deliver_cmd_of_error (s := { s with inputs := rest }) hd)
  | ok i =>
    rw [step_cmd_of_ok hv hi hd]
    obtain ⟨t, heffect, -⟩ | ⟨r, -, hexec⟩ := exec_cases i { s with inputs := rest }
    · have href' : refused { s with inputs := rest } w = true := href
      exact absurd heffect (refused_eq_true_iff.1 href' i hd t)
    · exact hexec

/-- A write to CMD sets ILL where the word is refused, and otherwise executes its command (R29, R100). -/
theorem moves_regWrite {width addr : Nat} {w : Word} {s t : State} (h : Moves (.regWrite width addr w) s t) :
    (width = 32 ∧ addr = s.params.base) ∧
    ((refused s w = true ∧ t = s.refuse) ∨ (∃ i, decode w = .ok i ∧ s.isRunning = false ∧ Leaves i s t)) := by
  obtain ⟨hcmd, h⟩ := h
  refine ⟨writesCmd_iff.1 hcmd, ?_⟩
  rcases h with ⟨i, hd, hexec⟩ | ⟨r, hd, rfl⟩
  · rcases exec_cases i s with ⟨u, heffect, hnext⟩ | ⟨r, heffect, hnext⟩
    · obtain rfl := Host.Outcome.next.inj (hnext.symm.trans hexec)
      exact .inr ⟨i, hd, effectOf_ok heffect⟩
    · obtain rfl := Host.Outcome.next.inj (hnext.symm.trans hexec)
      exact .inl ⟨refused_eq_true_iff.2 (by simp [hd, heffect]), rfl⟩
  · exact .inl ⟨refused_eq_true_iff.2 (by simp [hd]), rfl⟩

/-! ## The writers of each register -/

/-- Which registers an executed command may write, by its OP (R47). -/
theorem leaves_writers {w : Word} {i : Instr} {s t : State} (hd : decode w = .ok i) (h : Leaves i s t) :
    (t.cfgWidth ≠ s.cfgWidth ∨ t.cfgDir ≠ s.cfgDir ∨ t.fallback ≠ s.fallback → op w = 1) ∧
    (t.result ≠ s.result → 3 ≤ op w ∧ op w ≤ 6) ∧
    (t.pred ≠ s.pred ∨ t.idx ≠ s.idx → 1 ≤ op w ∧ op w ≤ 4) ∧
    (t.err ≠ s.err → op w = 1) := by
  obtain ⟨-, hi⟩ := decode_ok_cases hd
  rcases hi with ⟨hop, rfl⟩ | ⟨hop, rfl⟩ | ⟨hop, rfl⟩ | ⟨hop, rfl⟩ | ⟨hop, rfl⟩ | ⟨hop, rfl⟩ | ⟨hop, rfl⟩
  · obtain ⟨_, _, rfl | ⟨-, rfl⟩⟩ := leaves_openStream h <;> simp [hop]
  · obtain rfl := h; simp [hop]
  · obtain ⟨x, -, rfl⟩ := h; simp [hop]
  · obtain rfl := h; simp [hop]
  · obtain ⟨x, -, rfl⟩ := h; simp [hop]
  · obtain ⟨x, -, rfl⟩ := h; simp [hop]
  · obtain ⟨-, rfl⟩ := h; simp [hop]

/-- The block's own move writes PRED, IDX, BUF and CTL, and only in PROCESS (R93). -/
theorem blockMove_writers (s : State) : s.blockMove = s ∨
    (s.ctl = .running .process ∧ ∃ c held ctl, s.blockMove = { s.withCodec c with buf := held, ctl := ctl }) := by
  rcases blockMove_cases s with ⟨-, h⟩ | ⟨hprocess, -, h⟩ | ⟨hprocess, -, h⟩
  · exact .inl h
  · exact .inr ⟨hprocess, _, s.buf, _, h⟩
  · exact .inr ⟨hprocess, _, _, _, h⟩

/-- Settles O51, by the event that the step takes; an executed command writes what its OP allows. -/
theorem registerWriters : Obligations.RegisterWriters := by
  intro s t h hreset
  obtain ⟨-, ⟨hi, rfl⟩ | ⟨e, rest, hi, hm⟩⟩ := step_next_cases h
  · obtain hsame | ⟨hprocess, c, held, ctl, hconv⟩ := blockMove_writers s
    · simp [hsame]
    · simp [hconv, converts, hprocess, hi]
  cases e with
  | regRead width addr =>
    obtain ⟨v, u, hread, rfl⟩ := hm
    rw [readRegister_state hread]
    simp
  | regWrite width addr w =>
    obtain ⟨⟨rfl, rfl⟩, ⟨href, rfl⟩ | ⟨i, hd, -, hleaves⟩⟩ := moves_regWrite hm
    · have href' : refused s w = true := href
      simp [hi, href']
    · have hwrites : ∀ lo hi', lo ≤ op w ∧ op w ≤ hi' → writesOp s lo hi' := fun lo hi' hop =>
        ⟨w, by simp [hi], hop.1, hop.2, (decode_ok_cases hd).1⟩
      obtain ⟨hconfig, hresult, hcodec, herr⟩ := leaves_writers hd hleaves
      obtain ⟨hill, hbuf⟩ := leaves_ill_buf hleaves
      exact ⟨fun hne => hwrites 1 1 (by simp [hconfig hne]), fun hne => hwrites 3 6 (hresult hne),
        fun hne => .inr (hwrites 1 4 (hcodec hne)), fun hne => .inl (hwrites 1 1 (by simp [herr hne])),
        fun hne => absurd hill hne, fun hne => absurd hbuf hne⟩
  | allocReport ok =>
    obtain rfl := hm
    simp
  | readAnswer a =>
    have htakes : s.ctl = .running .readWait → takesRead s := fun hwait => ⟨hwait, a, by simp [hi]⟩
    obtain ⟨hwait, ⟨-, rfl⟩ | ⟨-, rfl⟩ | ⟨b, -, -, -, -, -, rfl⟩ | ⟨b, -, -, -, -, rfl⟩⟩ := readAnswered_cases hm <;>
      simp [htakes hwait]
  | writeAnswer a =>
    obtain ⟨hwait, ⟨-, rfl⟩ | ⟨rfl, rfl⟩⟩ := writeAnswered_cases hm
    · simp
    · simp [hi, show s.ctl = .running .writeWait from hwait]
  | blockTurn =>
    obtain rfl := hm
    obtain hsame | ⟨hprocess, c, held, ctl, hconv⟩ := blockMove_writers { s with inputs := rest }
    · simp [hsame]
    · rw [hconv]
      simp [converts, show s.ctl = .running .process from hprocess, hi]
  | reset => simp [hi] at hreset

/-- Settles O50: a step that is no reset writes ILL only where it sets it. -/
theorem illIsSticky : Obligations.IllIsSticky := by
  refine ⟨fun s w hv href => ⟨_, step_cmd_of_refused (s := s.commanded w) hv rfl href, rfl⟩, ?_, ?_⟩
  · intro s t h hset hreset
    obtain ⟨-, -, -, -, hill, -⟩ := registerWriters s t h hreset
    by_contra hclear
    obtain ⟨w, -, -, ht⟩ := hill (by simpa [hset] using hclear)
    exact hclear ht
  · intro s t h hreset
    obtain ⟨-, ⟨hi, -⟩ | ⟨e, rest, hi, hm⟩⟩ := step_next_cases h
    · simp [hi] at hreset
    · obtain rfl : e = .reset := by simpa [hi] using hreset
      obtain rfl := hm
      rfl

end Sys2Proof.Proofs
end

section
/-! SUPPORT. The sizes of converted blocks (R94 to R96), IDX in the table (R15, R66), and the machine's invariant. -/

namespace Sys2Proof.Proofs

open Sys2Proof.Machine Sys2Proof.Claims

/-! ## IDX stays in the table (R15) -/

/-- UPDATE leaves IDX in the table: the clamp of R66. -/
theorem update_idx_lt {P : Params} (hv : P.valid = true) (c : CodecState) (code : Code) :
    (update P c code).idx.toNat < P.tableSize := by
  obtain ⟨hlo, hhi⟩ := tableSize_mem_of_valid hv
  obtain ⟨h0, h1⟩ := clamp_mem (lo := 0) (hi := (P.tableSize : Int) - 1) (by omega)
    ((c.idx.toNat : Int) + adaptation P (Code.level code))
  rw [update, toNat_ofInt_idx h0 (by omega)]
  omega

theorem initCodec_idx_lt {P : Params} (hv : P.valid = true) : (initCodec P).idx.toNat < P.tableSize := by
  have hinit := initialIndex_lt_of_valid hv
  have hsize := (tableSize_mem_of_valid hv).2
  rw [initCodec, BitVec.toNat_ofNat, Nat.mod_eq_of_lt (by omega)]
  exact hinit

theorem encodeAll_idx_lt {P : Params} (hv : P.valid = true) (samples : List Int) (c : CodecState)
    (hc : c.idx.toNat < P.tableSize) : (encodeAll P c samples).2.idx.toNat < P.tableSize := by
  induction samples generalizing c with
  | nil => exact hc
  | cons x rest ih => exact ih _ (update_idx_lt hv c _)

theorem decodeAll_idx_lt {P : Params} (hv : P.valid = true) (codes : List Code) (c : CodecState)
    (hc : c.idx.toNat < P.tableSize) : (decodeAll P c codes).2.idx.toNat < P.tableSize := by
  induction codes generalizing c with
  | nil => exact hc
  | cons code rest ih => exact ih _ (update_idx_lt hv c _)

theorem convertBlock_idx_lt {P : Params} (hv : P.valid = true) (dir : Dir) (w : Width) {c : CodecState}
    (hc : c.idx.toNat < P.tableSize) (bytes : List Byte) :
    (convertBlock P dir w c bytes).2.idx.toNat < P.tableSize := by
  cases dir with
  | encode => exact encodeAll_idx_lt hv _ c hc
  | decode => exact decodeAll_idx_lt hv _ c hc

/-! ## The sizes of blocks (R94 to R96) -/

@[simp] theorem length_encodeAll (P : Params) (samples : List Int) (c : CodecState) :
    (encodeAll P c samples).1.length = samples.length := by
  induction samples generalizing c with
  | nil => rfl
  | cons x rest ih => exact congrArg (· + 1) (ih _)

@[simp] theorem length_decodeAll (P : Params) (codes : List Code) (c : CodecState) :
    (decodeAll P c codes).1.length = codes.length := by
  induction codes generalizing c with
  | nil => rfl
  | cons code rest ih => exact congrArg (· + 1) (ih _)

@[simp] theorem length_packAll : ∀ codes : List Code, (packAll codes).length = codes.length / 2
  | [] => rfl
  | [_] => by simp [packAll]
  | _ :: _ :: rest => by
    simp only [packAll, List.length_cons, length_packAll rest]
    omega

@[simp] theorem length_unpackAll (bytes : List Byte) : (unpackAll bytes).length = 2 * bytes.length := by
  induction bytes with
  | nil => rfl
  | cons b rest ih => simp only [unpackAll, List.length_cons, ih]; omega

@[simp] theorem length_samples16 (order : ByteOrder) : ∀ bytes : List Byte,
    (samples16 order bytes).length = bytes.length / 2
  | [] => rfl
  | [_] => by simp [samples16]
  | _ :: _ :: rest => by
    simp only [samples16, List.length_cons, length_samples16 order rest]
    omega

@[simp] theorem length_externalSamples (P : Params) (w : Width) (bytes : List Byte) :
    (externalSamples P w bytes).length = bytes.length / widthBytes w := by
  cases w <;> simp [externalSamples, widthBytes]

theorem length_padded (P : Params) (w : Width) (samples : List Int) :
    (padded P w samples).length = samples.length + samples.length % 2 := by
  unfold padded
  split
  · simp [*]
  · omega

@[simp] theorem length_outBytes (P : Params) (w : Width) (v : Int) : (outBytes P w v).length = widthBytes w := by
  cases w with
  | w8 => rfl
  | w16 => cases h : P.sample16Order <;> simp [outBytes, split16, widthBytes, h]

/-- A block of whole or half samples encodes to half a byte a sample, the padding included (R86, R95). -/
theorem length_encodeBlock (P : Params) (w : Width) (c : CodecState) (bytes : List Byte) :
    (encodeBlock P w c bytes).1.length = (bytes.length / widthBytes w + 1) / 2 := by
  simp only [encodeBlock, length_packAll, length_encodeAll, length_padded, List.length_map, length_externalSamples]
  omega

/-- A block decodes to two samples a byte (R96). -/
theorem length_decodeBlock (P : Params) (w : Width) (c : CodecState) (bytes : List Byte) :
    (decodeBlock P w c bytes).1.length = 2 * bytes.length * widthBytes w := by
  simp [decodeBlock, List.length_flatten, Function.comp_def]

theorem widthBytes_pos (w : Width) : 0 < widthBytes w := by cases w <;> decide

/-- The output of a block that was asked for fits BUF (R26, R94). -/
theorem length_convertBlock_le {s : State} (hv : s.params.valid = true) (hread : s.buf.length ≤ reqBytes s) :
    (convertBlock s.params s.cfgDir s.cfgWidth s.codec s.buf).1.length ≤ s.params.blockSamples * widthBytes s.cfgWidth := by
  have heven := blockSamples_even_of_valid hv
  cases hdir : s.cfgDir with
  | encode =>
    have hsamples : s.buf.length / widthBytes s.cfgWidth ≤ s.params.blockSamples :=
      Nat.div_le_of_le_mul (by simpa [reqBytes, hdir, Nat.mul_comm] using hread)
    have hwidth : s.params.blockSamples ≤ s.params.blockSamples * widthBytes s.cfgWidth :=
      Nat.le_mul_of_pos_right _ (widthBytes_pos _)
    rw [convertBlock, length_encodeBlock]
    omega
  | decode =>
    rw [convertBlock, length_decodeBlock]
    refine Nat.mul_le_mul_right _ ?_
    simp only [reqBytes, hdir] at hread
    omega

end Sys2Proof.Proofs
end

section
/-! SUPPORT. The machine's invariant, kept by each of the things a step can do. -/

namespace Sys2Proof.Proofs

open Sys2Proof.Machine Sys2Proof.Claims

/-! ## The invariant under the updates of State -/

/-- The invariant says nothing of RESULT, of ILL, and of the host's side. -/
theorem inv_of_frame {s t : State} (hs : Inv s)
    (h : t = { s with
      result := t.result, ill := t.ill, inputs := t.inputs, allocReport := t.allocReport, consumed := t.consumed
      output := t.output, replies := t.replies, draws := t.draws }) : Inv t := by
  rw [h]
  exact { hs with }

theorem inv_withCodec {s : State} (hs : Inv s) {c : CodecState} (hc : c.idx.toNat < s.params.tableSize) :
    Inv (s.withCodec c) :=
  { hs with idxInTable := hc }

theorem err_of_ctl_ne_failed {s : State} (hs : Inv s) (h : s.ctl ≠ .failed) : s.err = .noError := by
  by_contra herr
  exact h (hs.errIffFailed.2 herr)

/-- A new CTL with no block in BUF, from a state with no error. -/
theorem inv_withCtl {s : State} (hs : Inv s) (hctl : s.ctl ≠ .failed) {c : Ctl} (hfailed : c ≠ .failed)
    (hprocess : c ≠ .running .process) (hwrite : c ≠ .running .writeWait) : Inv (s.withCtl c) :=
  { hs with
    errIffFailed := by simp [hfailed, err_of_ctl_ne_failed hs hctl]
    blockRead := fun h => absurd h hprocess
    blockToWrite := fun h => absurd h hwrite }

/-- A stream error leaves FAILED with ERR = IO (R101). -/
theorem inv_fatal_io {s : State} (hs : Inv s) : Inv (s.fatal .io) :=
  { hs with
    errIffFailed := by simp
    allocNeedsAllocMayFail := by simp
    blockRead := by simp
    blockToWrite := by simp }

/-! ## The invariant under what a step does -/

/-- FALLBACK is set exactly where OPEN takes the default width (R91). -/
theorem resolveWidth_fallback {P : Params} {wid : BitVec 8} (h : (resolveWidth P wid).2 = true) :
    (resolveWidth P wid).1 = P.defaultWidth := by
  rw [resolveWidth_snd, decide_eq_true_eq] at h
  rw [resolveWidth_fst, if_neg h.1, if_neg h.2]

theorem inv_leaves {i : Instr} {s t : State} (hs : Inv s) (h : Leaves i s t) : Inv t := by
  have hv := hs.paramsValid
  cases i with
  | openStream dir wid =>
    have hfallback : (resolveWidth s.params wid).2 = true → (resolveWidth s.params wid).1 = s.params.defaultWidth :=
      resolveWidth_fallback
    have hidx := initCodec_idx_lt hv
    obtain ⟨_, _, rfl | ⟨hmay, rfl⟩⟩ := leaves_openStream h
    · exact ⟨hv, hidx, by simp, by simp, hfallback, by simp, by simp⟩
    · exact ⟨hv, hidx, by simp, fun _ => hmay, hfallback, by simp, by simp⟩
  | init =>
    obtain rfl := h
    exact inv_withCodec hs (initCodec_idx_lt hv)
  | enc imm =>
    obtain ⟨x, -, rfl⟩ := h
    exact inv_of_frame (inv_withCodec hs (update_idx_lt hv _ _)) rfl
  | dec code =>
    obtain rfl := h
    exact inv_of_frame (inv_withCodec hs (update_idx_lt hv _ _)) rfl
  | nin imm =>
    obtain ⟨x, -, rfl⟩ := h
    exact inv_of_frame hs rfl
  | nout imm =>
    obtain ⟨x, -, rfl⟩ := h
    exact inv_of_frame hs rfl
  | run =>
    obtain ⟨hready, rfl⟩ := h
    exact inv_withCtl hs (by simp [hready]) (by simp) (by simp) (by simp)

theorem inv_blockMove {s : State} (hs : Inv s) : Inv s.blockMove := by
  have hcodec := inv_withCodec hs
    (convertBlock_idx_lt (c := s.codec) hs.paramsValid s.cfgDir s.cfgWidth hs.idxInTable s.buf)
  obtain ⟨-, h⟩ | ⟨hprocess, -, h⟩ | ⟨hprocess, hout, h⟩ := blockMove_cases s
  · rwa [h]
  · rw [h]
    exact inv_withCtl hcodec (by simp [hprocess]) (by simp) (by simp) (by simp)
  · have hfits := length_convertBlock_le hs.paramsValid (hs.blockRead hprocess).2
    rw [h]
    exact { hcodec with
      errIffFailed := by simp [err_of_ctl_ne_failed hs (by simp [hprocess])]
      blockRead := by simp
      blockToWrite := fun _ => ⟨List.length_pos_of_ne_nil hout, hfits⟩ }

theorem inv_readAnswered {a : ReadAnswer} {s t : State} (hs : Inv s) (h : readAnswered a s = .next t) : Inv t := by
  obtain ⟨hwait, ⟨-, rfl⟩ | ⟨-, rfl⟩ | ⟨b, -, -, -, -, -, rfl⟩ | ⟨b, -, hne, hlen, -, rfl⟩⟩ := readAnswered_cases h
  · exact inv_fatal_io hs
  · exact inv_withCtl hs (by simp [hwait]) (by simp) (by simp) (by simp)
  · exact inv_fatal_io (inv_of_frame hs rfl)
  · exact { hs with
      errIffFailed := by simp [err_of_ctl_ne_failed hs (by simp [hwait])]
      blockRead := fun _ => ⟨List.length_pos_of_ne_nil hne, hlen⟩
      blockToWrite := by simp }

theorem inv_writeAnswered {a : WriteAnswer} {s t : State} (hs : Inv s) (h : writeAnswered a s = .next t) : Inv t := by
  obtain ⟨hwait, ⟨-, rfl⟩ | ⟨-, rfl⟩⟩ := writeAnswered_cases h
  · exact inv_withCtl (inv_of_frame hs rfl) (by simp [hwait]) (by simp) (by simp) (by simp)
  · exact inv_fatal_io (inv_of_frame hs rfl)

theorem inv_afterReset {s : State} (hs : Inv s) : Inv s.afterReset :=
  { paramsValid := hs.paramsValid
    idxInTable := initCodec_idx_lt hs.paramsValid
    errIffFailed := by simp
    allocNeedsAllocMayFail := by simp
    fallbackWidth := by simp
    blockRead := by simp
    blockToWrite := by simp }

theorem inv_moves {e : Event} {s t : State} (hs : Inv s) (h : Moves e s t) : Inv t := by
  cases e with
  | regRead width addr =>
    obtain ⟨v, u, hread, rfl⟩ := h
    rw [readRegister_state hread]
    exact inv_of_frame hs rfl
  | regWrite width addr w =>
    obtain ⟨-, ⟨-, rfl⟩ | ⟨i, -, -, hleaves⟩⟩ := moves_regWrite h
    · exact inv_of_frame hs rfl
    · exact inv_leaves hs hleaves
  | allocReport ok => exact inv_of_frame hs (h ▸ rfl)
  | readAnswer a => exact inv_readAnswered hs h
  | writeAnswer a => exact inv_writeAnswered hs h
  | blockTurn => exact h ▸ inv_blockMove hs
  | reset => exact h ▸ inv_afterReset hs

/-- Settles O52, by what the step takes: no event, or the first of the queue. -/
theorem stepKeepsInvariant : Obligations.StepKeepsInvariant := by
  intro s t hs h
  obtain ⟨-, ⟨-, rfl⟩ | ⟨e, rest, -, hm⟩⟩ := step_next_cases h
  · exact inv_blockMove hs
  · exact inv_moves (inv_of_frame hs rfl) hm

end Sys2Proof.Proofs
end

section
/-! SUPPORT. What BUF holds while no block is in it changes no outcome (R26): every operation commutes with another content of BUF. -/

namespace Sys2Proof.Proofs

open Sys2Proof.Machine Sys2Proof.Claims

/-! ## States that differ in what BUF holds between blocks -/

/-- The states of the controller in which a block is in BUF (R26). -/
def HoldsBlock (c : Ctl) : Prop := c = .running .process ∨ c = .running .writeWait

/-- The state with other bytes in BUF. -/
def withBuf (b : List Byte) (s : State) : State := { s with buf := b }

theorem forgetBuf_of_holdsBlock {s : State} (h : HoldsBlock s.ctl) : forgetBuf s = s := by
  rcases h with h | h <;> simp [forgetBuf, h]

theorem forgetBuf_of_not_holdsBlock {s : State} (h : ¬ HoldsBlock s.ctl) : forgetBuf s = withBuf [] s := by
  unfold forgetBuf
  split <;> simp_all [HoldsBlock, withBuf]

theorem forgetBuf_ctl (s : State) : (forgetBuf s).ctl = s.ctl := by
  by_cases h : HoldsBlock s.ctl
  · rw [forgetBuf_of_holdsBlock h]
  · rw [forgetBuf_of_not_holdsBlock h, withBuf]

/-- States that agree up to BUF between blocks are equal, or hold no block and differ in BUF only. -/
theorem eq_or_withBuf_of_forgetBuf_eq {s t : State} (h : forgetBuf s = forgetBuf t) :
    s = t ∨ (¬ HoldsBlock s.ctl ∧ t = withBuf t.buf s) := by
  have hctl : s.ctl = t.ctl := by rw [← forgetBuf_ctl s, h, forgetBuf_ctl]
  by_cases hs : HoldsBlock s.ctl
  · rw [forgetBuf_of_holdsBlock hs, forgetBuf_of_holdsBlock (hctl ▸ hs)] at h
    exact .inl h
  · rw [forgetBuf_of_not_holdsBlock hs, forgetBuf_of_not_holdsBlock (hctl ▸ hs)] at h
    exact .inr ⟨hs, (congrArg (withBuf t.buf) h).symm⟩

theorem sameButBuf_refl : ∀ o, SameButBuf o o
  | .next _ => rfl
  | .fault _ => rfl
  | .refused _ => rfl

theorem sameButBuf_next_withBuf {s : State} (h : ¬ HoldsBlock s.ctl) (b : List Byte) :
    SameButBuf (.next s) (.next (withBuf b s)) := by
  have h' : ¬ HoldsBlock (withBuf b s).ctl := h
  rw [SameButBuf, forgetBuf_of_not_holdsBlock h, forgetBuf_of_not_holdsBlock h']
  rfl

/-- Outcomes that agree up to BUF between blocks are two such next states, or the same stop. -/
theorem sameButBuf_cases {o p : Host.Outcome State Fault Refusal} (h : SameButBuf o p) :
    (∃ s t, o = .next s ∧ p = .next t ∧ forgetBuf s = forgetBuf t) ∨ o = p := by
  cases o with
  | next s => cases p with
    | next t => exact .inl ⟨s, t, rfl, rfl, h⟩
    | fault _ => exact h.elim
    | refused _ => exact h.elim
  | fault _ => cases p with
    | next _ => exact h.elim
    | fault _ => exact .inr (congrArg _ h)
    | refused _ => exact h.elim
  | refused _ => cases p with
    | next _ => exact h.elim
    | fault _ => exact h.elim
    | refused _ => exact .inr (congrArg _ h)

/-! ## Each operation with other bytes in BUF -/

theorem allocateBuffer_withBuf (s : State) (b : List Byte) :
    (withBuf b s).allocateBuffer = (s.allocateBuffer.1, withBuf b s.allocateBuffer.2) := by
  unfold State.allocateBuffer
  rw [show (withBuf b s).params = s.params from rfl, show (withBuf b s).allocReport = s.allocReport from rfl]
  split
  · cases s.allocReport <;> rfl
  · rfl

/-- A command does the same to the other fields whatever BUF holds. -/
theorem effectOf_withBuf (i : Instr) (s : State) (b : List Byte) :
    effectOf i (withBuf b s) = (effectOf i s).map (withBuf b) := by
  have hgate : ∀ {α : Type} (o : Option α), gate (withBuf b s) o = gate s o := fun _ => rfl
  cases i with
  | openStream dir wid =>
    have hconfigured : (withBuf b s).configured dir wid = withBuf b (s.configured dir wid) := rfl
    simp only [effectOf, openEffect, hgate, hconfigured, allocateBuffer_withBuf]
    cases gate s (some ()) with
    | error r => rfl
    | ok _ => cases ((s.configured dir wid).allocateBuffer).1 <;> rfl
  | init =>
    simp only [effectOf, initEffect, hgate]
    cases gate s (some ()) <;> rfl
  | enc imm =>
    simp only [effectOf, encEffect, hgate]
    cases gate s (sampleOperand imm) <;> rfl
  | dec code =>
    simp only [effectOf, decEffect, hgate]
    cases gate s (some code) <;> rfl
  | nin imm =>
    simp only [effectOf, ninEffect, hgate, show (withBuf b s).cfgWidth = s.cfgWidth from rfl]
    cases gate s (externalOperand s.cfgWidth imm) <;> rfl
  | nout imm =>
    simp only [effectOf, noutEffect, hgate]
    cases gate s (sampleOperand imm) <;> rfl
  | run =>
    simp only [effectOf, runEffect, hgate, show (withBuf b s).ctl = s.ctl from rfl]
    cases gate s (some ()) with
    | error r => rfl
    | ok _ => by_cases hready : s.ctl = .ready <;> simp only [hready, if_true, if_false] <;> rfl

/-- A register read returns the same value whatever BUF holds. -/
theorem readRegister_withBuf (s : State) (b : List Byte) (width addr : Nat) :
    readRegister width addr (withBuf b s) = (readRegister width addr s).map (fun p => (p.1, withBuf b p.2)) := by
  unfold readRegister
  rw [show (withBuf b s).params = s.params from rfl, show (withBuf b s).isRunning = s.isRunning from rfl]
  split
  · cases regAt s.params addr with
    | none => rfl
    | some r => cases r <;> cases s.isRunning <;> rfl
  · rfl

/-- No command leaves a block in BUF: the first block comes with a read answer (R93). -/
theorem not_holdsBlock_of_leaves {i : Instr} {s t : State} (hs : ¬ HoldsBlock s.ctl) (h : Leaves i s t) :
    ¬ HoldsBlock t.ctl := by
  cases i with
  | openStream dir wid => obtain ⟨_, _, rfl | ⟨-, rfl⟩⟩ := leaves_openStream h <;> simp [HoldsBlock]
  | init => exact h ▸ hs
  | enc imm => obtain ⟨x, -, rfl⟩ := h; exact hs
  | dec code => exact h ▸ hs
  | nin imm => obtain ⟨x, -, rfl⟩ := h; exact hs
  | nout imm => obtain ⟨x, -, rfl⟩ := h; exact hs
  | run => obtain ⟨-, rfl⟩ := h; simp [HoldsBlock]

section
variable {s : State} (hs : ¬ HoldsBlock s.ctl) (b : List Byte)
include hs

theorem exec_withBuf (i : Instr) : SameButBuf (exec i s) (exec i (withBuf b s)) := by
  rw [exec_eq_perform, exec_eq_perform, effectOf_withBuf]
  cases h : effectOf i s with
  | error r => exact sameButBuf_next_withBuf (s := s.refuse) hs b
  | ok t => exact sameButBuf_next_withBuf (not_holdsBlock_of_leaves hs (effectOf_ok h).2) b

theorem blockMove_of_not_holdsBlock : s.blockMove = s := by
  obtain ⟨-, h⟩ | ⟨hprocess, -⟩ | ⟨hprocess, -⟩ := blockMove_cases s
  · exact h
  · exact absurd (.inl hprocess) hs
  · exact absurd (.inl hprocess) hs

theorem blockMove_withBuf : SameButBuf (.next s.blockMove) (.next (withBuf b s).blockMove) := by
  have hs' : ¬ HoldsBlock (withBuf b s).ctl := hs
  rw [blockMove_of_not_holdsBlock hs, blockMove_of_not_holdsBlock hs']
  exact sameButBuf_next_withBuf hs b

theorem regRead_withBuf (width addr : Nat) :
    SameButBuf (deliver (.regRead width addr) s).outcome (deliver (.regRead width addr) (withBuf b s)).outcome := by
  simp only [deliver, readRegister_withBuf]
  cases h : readRegister width addr s with
  | none => exact sameButBuf_refl _
  | some p =>
    have hp : ¬ HoldsBlock (p.2.reply p.1).ctl := by
      rw [readRegister_state h]
      exact hs
    exact sameButBuf_next_withBuf hp b

theorem outstanding_of_not_holdsBlock :
    outstanding s = if s.ctl = .running .readWait then some (.streamRead (reqBytes s)) else none := by
  unfold outstanding
  split <;> simp_all [HoldsBlock]

theorem outstanding_withBuf : outstanding (withBuf b s) = outstanding s := by
  have hs' : ¬ HoldsBlock (withBuf b s).ctl := hs
  rw [outstanding_of_not_holdsBlock hs, outstanding_of_not_holdsBlock hs']
  rfl

omit hs in
/-- The bytes that a read answer brings replace what BUF held (R93). -/
theorem takeBytes_withBuf (bytes : List Byte) :
    SameButBuf (.next (s.takeBytes bytes)) (.next ((withBuf b s).takeBytes bytes)) := by
  cases bytes with
  | nil => exact sameButBuf_next_withBuf (s := s.withCtl .done) (by simp [HoldsBlock]) b
  | cons x xs =>
    simp only [State.takeBytes, show (withBuf b s).params = s.params from rfl,
      show reqBytes (withBuf b s) = reqBytes s from rfl]
    split
    · exact sameButBuf_next_withBuf (s := (s.consume (x :: xs)).fatal .io) (by simp [HoldsBlock]) b
    · exact sameButBuf_refl _

theorem readAnswered_withBuf (a : ReadAnswer) : SameButBuf (readAnswered a s) (readAnswered a (withBuf b s)) := by
  simp only [readAnswered, outstanding_withBuf hs b]
  split
  · cases a with
    | fail => exact sameButBuf_next_withBuf (s := s.fatal .io) (by simp [HoldsBlock]) b
    | ok bytes =>
      dsimp only
      split
      · exact sameButBuf_refl _
      · exact takeBytes_withBuf b bytes
  · exact sameButBuf_refl _
  · exact sameButBuf_refl _

/-- With no block in BUF no StreamWrite is outstanding, and an answer to one is a fault. -/
theorem writeAnswered_of_not_holdsBlock (a : WriteAnswer) : writeAnswered a s = .fault .unsolicitedAnswer := by
  rw [writeAnswered, outstanding_of_not_holdsBlock hs]
  split_ifs <;> rfl

theorem writeAnswered_withBuf (a : WriteAnswer) : SameButBuf (writeAnswered a s) (writeAnswered a (withBuf b s)) := by
  have hs' : ¬ HoldsBlock (withBuf b s).ctl := hs
  rw [writeAnswered_of_not_holdsBlock hs, writeAnswered_of_not_holdsBlock hs']
  exact sameButBuf_refl _

theorem deliver_withBuf (e : Event) : SameButBuf (deliver e s).outcome (deliver e (withBuf b s)).outcome := by
  cases e with
  | regRead width addr => exact regRead_withBuf hs b width addr
  | regWrite width addr w =>
    simp only [deliver, show (withBuf b s).params = s.params from rfl]
    split
    · cases decode w with
      | ok i => exact exec_withBuf hs b i
      | error r => exact sameButBuf_next_withBuf (s := s.refuse) hs b
    · exact sameButBuf_refl _
  | allocReport ok => exact sameButBuf_next_withBuf (s := { s with allocReport := some ok }) hs b
  | readAnswer a => exact readAnswered_withBuf hs b a
  | writeAnswer a => exact writeAnswered_withBuf hs b a
  | blockTurn => exact blockMove_withBuf hs b
  | reset => exact sameButBuf_refl _

theorem step_withBuf : SameButBuf (step s) (step (withBuf b s)) := by
  cases hv : s.params.valid with
  | false => 
    rw [step_of_invalid hv, step_of_invalid (s := withBuf b s) hv]
    exact sameButBuf_refl _
  | true =>
    cases hi : s.inputs with
    | nil =>
      rw [step_of_nil hv hi, step_of_nil (s := withBuf b s) hv hi]
      exact blockMove_withBuf hs b
    | cons e rest =>
      rw [step_of_cons hv hi, step_of_cons (s := withBuf b s) hv hi]
      exact deliver_withBuf (s := { s with inputs := rest }) hs b e

end

theorem step_sameButBuf {s t : State} (h : forgetBuf s = forgetBuf t) : SameButBuf (step s) (step t) := by
  obtain rfl | ⟨hs, ht⟩ := eq_or_withBuf_of_forgetBuf_eq h
  · exact sameButBuf_refl _
  · rw [ht]
    exact step_withBuf hs _

/-- Settles O56, by induction on the number of steps: one step keeps two states equal up to BUF between blocks. -/
theorem bufNeverObservable : Obligations.BufNeverObservable := by
  intro n
  induction n with
  | zero => exact fun s t h => h
  | succ n ih =>
    intro s t h
    have hstep : SameButBuf (core.step s) (core.step t) := step_sameButBuf h
    simp only [Host.Core.run]
    obtain ⟨s', t', hs, ht, hst⟩ | heq := sameButBuf_cases hstep
    · rw [hs, ht]
      exact ih s' t' hst
    · rw [heq]
      exact sameButBuf_refl _

end Sys2Proof.Proofs
end

section
/-! SUPPORT. What each answer on a stream port does (R35, R36, R89, R97), as equations of the two answer functions, and the steps that
take an answer. -/

namespace Sys2Proof.Proofs

open Sys2Proof.Machine Sys2Proof.Claims

/-! ## The outstanding request (R40) -/

theorem outstanding_eq_streamRead {s : State} {n : Nat} :
    outstanding s = some (.streamRead n) ↔ s.ctl = .running .readWait ∧ reqBytes s = n := by
  unfold outstanding
  split <;> simp_all

theorem outstanding_eq_streamWrite {s : State} {bytes : List Byte} :
    outstanding s = some (.streamWrite bytes) ↔ s.ctl = .running .writeWait ∧ s.buf = bytes := by
  unfold outstanding
  split <;> simp_all

/-! ## Read answers (R35) -/

theorem readAnswered_of_not_readWait {s : State} (h : s.ctl ≠ .running .readWait) (a : ReadAnswer) :
    readAnswered a s = .fault .unsolicitedAnswer := by
  unfold readAnswered
  split
  case h_1 n hout => exact absurd (outstanding_eq_streamRead.1 hout).1 h
  all_goals rfl

/-- A read of at least one byte is the block to convert, unless it is short under the other reading of I4 (R89, R97). -/
theorem takeBytes_block {s : State} {bytes : List Byte} (hne : bytes ≠ [])
    (h : ¬ (s.params.shortReadIsError = true ∧ bytes.length < reqBytes s)) :
    s.takeBytes bytes = { s.consume bytes with buf := bytes, ctl := .running .process } := by
  obtain ⟨b, bs, rfl⟩ := List.exists_cons_of_ne_nil hne
  exact if_neg (by simpa using h)

/-- Under the other reading of I4 a short read is an IOError, its bytes consumed (log 18). -/
theorem takeBytes_shortReadIsError {s : State} {bytes : List Byte} (hne : bytes ≠ [])
    (h : s.params.shortReadIsError = true ∧ bytes.length < reqBytes s) :
    s.takeBytes bytes = (s.consume bytes).fatal .io := by
  obtain ⟨b, bs, rfl⟩ := List.exists_cons_of_ne_nil hne
  exact if_pos (by simpa using h)

section
variable {s : State} (hwait : s.ctl = .running .readWait)
include hwait

theorem readAnswered_fail : readAnswered .fail s = .next (s.fatal .io) := by
  simp [readAnswered, outstanding_eq_streamRead.2 ⟨hwait, rfl⟩]

theorem readAnswered_overlong {bytes : List Byte} (h : reqBytes s < bytes.length) :
    readAnswered (.ok bytes) s = .fault .overlongAnswer := by
  simp [readAnswered, outstanding_eq_streamRead.2 ⟨hwait, rfl⟩, h]

theorem readAnswered_ok {bytes : List Byte} (h : bytes.length ≤ reqBytes s) :
    readAnswered (.ok bytes) s = .next (s.takeBytes bytes) := by
  simp [readAnswered, outstanding_eq_streamRead.2 ⟨hwait, rfl⟩, Nat.not_lt.2 h]

theorem readAnswered_endOfInput : readAnswered (.ok []) s = .next (s.withCtl .done) :=
  readAnswered_ok hwait (Nat.zero_le _)

theorem readAnswered_block {bytes : List Byte} (hne : bytes ≠ [])
    (h : bytes.length = reqBytes s ∨ (bytes.length < reqBytes s ∧ s.params.shortReadIsError = false)) :
    readAnswered (.ok bytes) s = .next { s.consume bytes with buf := bytes, ctl := .running .process } := by
  rw [readAnswered_ok hwait (by omega), takeBytes_block hne]
  rintro ⟨hstrict, hshort⟩
  rcases h with hfull | ⟨-, hlenient⟩
  · omega
  · simp [hstrict] at hlenient

theorem readAnswered_shortReadIsError {bytes : List Byte} (hne : bytes ≠ [])
    (h : bytes.length < reqBytes s ∧ s.params.shortReadIsError = true) :
    readAnswered (.ok bytes) s = .next ((s.consume bytes).fatal .io) := by
  rw [readAnswered_ok hwait h.1.le, takeBytes_shortReadIsError hne h.symm]

end

/-- Settles O40, by the answer: `readAnswered`'s equation for it, at the state with the answer taken off the queue. -/
theorem readAnswerEffects : Obligations.ReadAnswerEffects := by
  intro s rest a hv hi
  rw [step_of_cons hv hi]
  refine ⟨fun h => readAnswered_of_not_readWait (s := { s with inputs := rest }) h a, fun h => ?_⟩
  have hwait : ({ s with inputs := rest } : State).ctl = .running .readWait := h
  refine ⟨?_, ?_, ?_⟩
  · rintro rfl
    exact readAnswered_fail hwait
  · rintro rfl
    exact readAnswered_endOfInput hwait
  · rintro b rfl hne
    exact ⟨readAnswered_overlong hwait, readAnswered_block hwait hne, readAnswered_shortReadIsError hwait hne⟩

/-! ## Write answers (R36) -/

theorem writeAnswered_of_not_writeWait {s : State} (h : s.ctl ≠ .running .writeWait) (a : WriteAnswer) :
    writeAnswered a s = .fault .unsolicitedAnswer := by
  unfold writeAnswered
  split
  case h_1 bytes hout => exact absurd (outstanding_eq_streamWrite.1 hout).1 h
  all_goals rfl

theorem writeAnswered_ok {s : State} (hwait : s.ctl = .running .writeWait) :
    writeAnswered .ok s = .next ((s.append s.buf).withCtl (.running .readWait)) := by
  simp [writeAnswered, outstanding_eq_streamWrite.2 ⟨hwait, rfl⟩]

theorem writeAnswered_fail {s : State} (hwait : s.ctl = .running .writeWait) :
    writeAnswered .fail s = .next (((s.drawPrefix s.buf).2.append (s.drawPrefix s.buf).1).fatal .io) := by
  simp [writeAnswered, outstanding_eq_streamWrite.2 ⟨hwait, rfl⟩]

theorem drawPrefix_isPrefix (s : State) (bytes : List Byte) : (s.drawPrefix bytes).1 <+: bytes :=
  List.take_prefix _ _

/-- Settles O41, by the answer; what a failed write leaves is the part of the block that was drawn (log 8). -/
theorem writeAnswerEffects : Obligations.WriteAnswerEffects := by
  intro s rest a hv hi
  rw [step_of_cons hv hi]
  refine ⟨fun h => writeAnswered_of_not_writeWait (s := { s with inputs := rest }) h a, fun h => ?_⟩
  have hwait : ({ s with inputs := rest } : State).ctl = .running .writeWait := h
  refine ⟨?_, ?_⟩
  · rintro rfl
    exact writeAnswered_ok hwait
  · rintro rfl
    exact ⟨_, drawPrefix_isPrefix { s with inputs := rest } s.buf, writeAnswered_fail hwait⟩

end Sys2Proof.Proofs
end

section
/-! SUPPORT. Which register accesses are bus errors (R33, R34, R104). -/

namespace Sys2Proof.Proofs

open Sys2Proof.Machine Sys2Proof.Claims

/-- The registers beside CMD stand at R33's three other offsets. -/
theorem addr_of_regAt {P : Params} {addr : Nat} {reg : Reg} (h : regAt P addr = some reg) :
    reg = .cmd ∨ addr = P.base + 4 ∨ addr = P.base + 8 ∨ addr = P.base + 12 := by
  unfold regAt at h
  split_ifs at h <;> simp_all

/-- A read has a value exactly when it is 32 bits wide at RESULT, STATUS or CODEC (R34). -/
theorem exists_readRegister_iff {width addr : Nat} {s : State} :
    (∃ v t, readRegister width addr s = some (v, t)) ↔
      width = 32 ∧ (addr = s.params.base + 4 ∨ addr = s.params.base + 8 ∨ addr = s.params.base + 12) := by
  constructor
  · rintro ⟨v, t, h⟩
    obtain ⟨hwidth, hreg⟩ := readRegister_cases h
    refine ⟨hwidth, ?_⟩
    rcases hreg with ⟨hreg, -⟩ | ⟨hreg, -⟩ | ⟨hreg, -⟩ | ⟨hreg | hreg, -⟩ <;> simpa using addr_of_regAt hreg
  · rintro ⟨rfl, rfl | rfl | rfl⟩
    · exact ⟨_, _, readRegister_result s⟩
    · exact ⟨_, _, readRegister_status s⟩
    · exact ⟨_, _, readRegister_codec s⟩

/-- A read event is a bus error exactly when it has no value. -/
theorem deliver_regRead_busError_iff {width addr : Nat} {s : State} :
    (deliver (.regRead width addr) s).outcome = .fault .busError ↔ ¬ ∃ v t, readRegister width addr s = some (v, t) := by
  cases h : readRegister width addr s with
  | none => simp [deliver, h]
  | some p =>
    obtain ⟨v, t⟩ := p
    simp [deliver, h]

/-- No command ends in a fault (R100). -/
theorem exec_ne_fault (i : Instr) (s : State) (f : Fault) : exec i s ≠ .fault f := by
  obtain ⟨t, -, h⟩ | ⟨r, -, h⟩ := exec_cases i s <;> simp [h]

/-- A write event is a bus error exactly when it does not reach CMD, whatever its word (R34, R100). -/
theorem deliver_regWrite_busError_iff {width addr : Nat} {w : Word} {s : State} :
    (deliver (.regWrite width addr w) s).outcome = .fault .busError ↔ ¬ writesCmd s.params width addr = true := by
  by_cases hcmd : writesCmd s.params width addr = true
  · cases hd : decode w with
    | ok i => simp [deliver, hcmd, hd, exec_ne_fault]
    | error r => simp [deliver, hcmd, hd]
  · simp [deliver, hcmd]

/-- Settles O46: a read with a value and a write that reaches CMD go on; no other access does. -/
theorem busErrorExactly : Obligations.BusErrorExactly := by
  constructor
  · intro s width addr rest hv hi
    rw [step_of_cons hv hi, deliver_regRead_busError_iff, exists_readRegister_iff]
  · intro s width addr w rest hv hi
    rw [step_of_cons hv hi, deliver_regWrite_busError_iff, writesCmd_iff]

end Sys2Proof.Proofs
end

section
/-! SUPPORT. What only grows: the streams and the record of reads, with the parameters fixed (R31, R32, R36). -/

namespace Sys2Proof.Proofs

open Sys2Proof.Machine Sys2Proof.Claims

/-- The streams and the record of reads of `t` extend those of `s`, and the parameters are the same. -/
def Extends (s t : State) : Prop :=
  s.output <+: t.output ∧ s.consumed <+: t.consumed ∧ s.replies <+: t.replies ∧ t.params = s.params

/-- What writes neither the streams nor the record nor the parameters extends them trivially. -/
theorem extends_of_eq {s t : State} (houtput : t.output = s.output) (hconsumed : t.consumed = s.consumed)
    (hreplies : t.replies = s.replies) (hparams : t.params = s.params) : Extends s t := by
  simp [Extends, houtput, hconsumed, hreplies, hparams]

theorem extends_append (s : State) (bytes : List Byte) : Extends s (s.append bytes) := by simp [Extends]

theorem extends_consume (s : State) (bytes : List Byte) : Extends s (s.consume bytes) := by simp [Extends]

theorem extends_reply (s : State) (v : Word) : Extends s (s.reply v) := by simp [Extends]

/-- A command moves no byte on a stream and answers no read (R47). -/
theorem extends_leaves {i : Instr} {s t : State} (h : Leaves i s t) : Extends s t := by
  cases i with
  | openStream dir wid => obtain ⟨_, _, rfl | ⟨-, rfl⟩⟩ := leaves_openStream h <;> exact extends_of_eq rfl rfl rfl rfl
  | init => exact h ▸ extends_of_eq rfl rfl rfl rfl
  | enc imm => obtain ⟨x, -, rfl⟩ := h; exact extends_of_eq rfl rfl rfl rfl
  | dec code => exact h ▸ extends_of_eq rfl rfl rfl rfl
  | nin imm => obtain ⟨x, -, rfl⟩ := h; exact extends_of_eq rfl rfl rfl rfl
  | nout imm => obtain ⟨x, -, rfl⟩ := h; exact extends_of_eq rfl rfl rfl rfl
  | run => obtain ⟨-, rfl⟩ := h; exact extends_of_eq rfl rfl rfl rfl

/-- The conversion of a block stays inside the block (R93). -/
theorem extends_blockMove (s : State) : Extends s s.blockMove := by
  obtain h | ⟨-, c, held, ctl, h⟩ := blockMove_writers s <;> rw [h] <;> exact extends_of_eq rfl rfl rfl rfl

/-- Only a read of at least one byte consumes input (R35, R44). -/
theorem extends_readAnswered {a : ReadAnswer} {s t : State} (h : readAnswered a s = .next t) : Extends s t := by
  obtain ⟨-, ⟨-, rfl⟩ | ⟨-, rfl⟩ | ⟨b, -, -, -, -, -, rfl⟩ | ⟨b, -, -, -, -, rfl⟩⟩ := readAnswered_cases h
  · exact extends_of_eq rfl rfl rfl rfl
  · exact extends_of_eq rfl rfl rfl rfl
  · exact extends_consume s b
  · exact extends_consume s b

/-- A write answer appends the block, or the part of it that a failed write left (R36). -/
theorem extends_writeAnswered {a : WriteAnswer} {s t : State} (h : writeAnswered a s = .next t) : Extends s t := by
  obtain ⟨-, ⟨-, rfl⟩ | ⟨-, rfl⟩⟩ := writeAnswered_cases h
  · exact extends_append s _
  · exact extends_append s _

theorem extends_moves {e : Event} {s t : State} (h : Moves e s t) : Extends s t := by
  cases e with
  | regRead width addr =>
    obtain ⟨v, u, hread, rfl⟩ := h
    rw [readRegister_state hread]
    exact extends_reply s v
  | regWrite width addr w =>
    obtain ⟨-, ⟨-, rfl⟩ | ⟨i, -, -, hleaves⟩⟩ := moves_regWrite h
    · exact extends_of_eq rfl rfl rfl rfl
    · exact extends_leaves hleaves
  | allocReport ok => exact h ▸ extends_of_eq rfl rfl rfl rfl
  | readAnswer a => exact extends_readAnswered h
  | writeAnswer a => exact extends_writeAnswered h
  | blockTurn => exact h ▸ extends_blockMove s
  | reset => exact h ▸ extends_of_eq rfl rfl rfl rfl

/-- Settles O55, by what the step takes: no event, or the first of the queue, whose removal writes none of these fields. -/
theorem streamsOnlyGrow : Obligations.StreamsOnlyGrow := by
  intro s t h
  obtain ⟨-, ⟨-, rfl⟩ | ⟨e, rest, -, hm⟩⟩ := step_next_cases h
  · exact extends_blockMove s
  · exact extends_moves (s := { s with inputs := rest }) hm

end Sys2Proof.Proofs
end

section
/-! SUPPORT. Decoding and encoding as inverses (R46, R48, R52), and the rows of R48 as the decoder selects them. -/

namespace Sys2Proof.Proofs

open Sys2Proof.Machine Sys2Proof.Claims

/-! ## The row of a command (R48) -/

/-- The mask of a command's row. -/
def rowMask : Instr → Word
  | .openStream _ _ => 0xF700FFFF
  | .init => 0xFFFFFFFF
  | .enc _ => 0xFFFF0000
  | .dec _ => 0xFFFFFFF0
  | .nin _ => 0xFFFF0000
  | .nout _ => 0xFFFF0000
  | .run => 0xFFFFFFFF

/-- The match of a command's row. -/
def rowMatch : Instr → Word
  | .openStream _ _ => 0x10000000
  | .init => 0x20000000
  | .enc _ => 0x30000000
  | .dec _ => 0x40000000
  | .nin _ => 0x50000000
  | .nout _ => 0x60000000
  | .run => 0x70000000

/-- A word matches the row of the command it decodes to. -/
theorem and_rowMask_of_decode {w : Word} {i : Instr} (h : decode w = .ok i) : w &&& rowMask i = rowMatch i := by
  unfold decode at h
  split at h
  case h_8 => cases h
  all_goals
    obtain ⟨hrow, rfl⟩ := selectRow_eq_ok.1 h
    exact hrow

/-! ## A word as the packing of its fields -/

/-- A field that lies inside a zero field is zero. -/
theorem extractLsb'_eq_zero_of_within {n start len k l : Nat} {w : BitVec n} (h : w.extractLsb' start len = 0)
    (hstart : start ≤ k) (hend : k + l ≤ start + len) : w.extractLsb' k l = 0 := by
  apply BitVec.eq_of_getLsbD_eq
  intro j hj
  have hbit := congrArg (fun v => BitVec.getLsbD v (k + j - start)) h
  simpa [hj, show k + j - start < len by omega, show start + (k + j - start) = k + j by omega] using hbit

/-- A word whose bits 27:16 are zero holds OP and IMM only. -/
theorem eq_packWord_op_imm {w : Word} {o : BitVec 4} (hop : opField w = o) (hzero : w.extractLsb' 16 12 = 0) :
    w = packWord o 0 0 (immField w) := by
  have hdir : w.extractLsb' 27 1 = 0 := extractLsb'_eq_zero_of_within hzero (by decide) (by decide)
  have hwid : widField w = 0 := extractLsb'_eq_zero_of_within hzero (by decide) (by decide)
  calc w = packWord (opField w) (w.extractLsb' 27 1) (widField w) (immField w) :=
        eq_packWord w (extractLsb'_eq_zero_of_within hzero (by decide) (by decide))
    _ = packWord o 0 0 (immField w) := by rw [hop, hdir, hwid]

/-- IMM is its low four bits where the others are zero. -/
theorem immField_eq_setWidth {w : Word} (hzero : w.extractLsb' 4 24 = 0) :
    immField w = (w.extractLsb' 0 4).setWidth 16 := by
  have hhigh : w.extractLsb' 4 12 = 0 := extractLsb'_eq_zero_of_within hzero (by decide) (by decide)
  calc immField w = (w.extractLsb' 4 12 ++ w.extractLsb' 0 4 : BitVec (12 + 4)) :=
        (BitVec.extractLsb'_append_extractLsb'_eq_extractLsb' (x := w) (len₂ := 12) (show 4 = 0 + 4 from rfl)).symm
    _ = (w.extractLsb' 0 4).setWidth 16 := by rw [hhigh, BitVec.setWidth_eq_append (by decide)]; rfl

/-- The bit of the direction that a word names is its bit 27 (R18, R46). -/
theorem dirField_bit (w : Word) : (dirField w).bit = w.extractLsb' 27 1 := by
  apply BitVec.eq_of_getLsbD_eq
  intro k hk
  obtain rfl : k = 0 := by omega
  simp only [BitVec.getLsbD_extractLsb', dirField]
  cases w.getLsbD 27 <;> rfl

/-! ## The two inverses -/

/-- Every command's word decodes to it. -/
theorem decode_encode (i : Instr) : decode (encode i) = .ok i := by
  cases i with
  | openStream dir wid => exact Laws.RoundTrip.openStream dir wid
  | init => exact Laws.RoundTrip.init
  | enc imm => exact Laws.RoundTrip.enc imm
  | dec code => exact Laws.RoundTrip.dec code
  | nin imm => exact Laws.RoundTrip.nin imm
  | nout imm => exact Laws.RoundTrip.nout imm
  | run => exact Laws.RoundTrip.run

/-- A word that decodes is the word of its command: the row leaves no bit free beside the operands. -/
theorem eq_encode_of_decode {w : Word} {i : Instr} (h : decode w = .ok i) : w = encode i := by
  have hrow := and_rowMask_of_decode h
  obtain ⟨-, hi⟩ := decode_ok_cases h
  rcases hi with ⟨-, rfl⟩ | ⟨-, rfl⟩ | ⟨-, rfl⟩ | ⟨-, rfl⟩ | ⟨-, rfl⟩ | ⟨-, rfl⟩ | ⟨-, rfl⟩
  · obtain ⟨hop, hreserved, himm⟩ := (mask_openStream w).1 hrow
    rw [encode, dirField_bit, ← hop, ← himm]
    exact eq_packWord w hreserved
  · exact BitVec.and_allOnes.symm.trans hrow
  · obtain ⟨hop, hzero⟩ := (mask_imm w 3).1 hrow
    exact eq_packWord_op_imm hop hzero
  · obtain ⟨hop, hzero⟩ := (mask_dec w).1 hrow
    rw [encode, ← immField_eq_setWidth hzero]
    exact eq_packWord_op_imm hop (extractLsb'_eq_zero_of_within hzero (by decide) (by decide))
  · obtain ⟨hop, hzero⟩ := (mask_imm w 5).1 hrow
    exact eq_packWord_op_imm hop hzero
  · obtain ⟨hop, hzero⟩ := (mask_imm w 6).1 hrow
    exact eq_packWord_op_imm hop hzero
  · exact BitVec.and_allOnes.symm.trans hrow

/-- Settles O1: a command's word decodes to it, and a word that decodes is its command's. -/
theorem decodeExactlyEncode : Obligations.DecodeExactlyEncode :=
  fun _ i => ⟨eq_encode_of_decode, fun h => h ▸ decode_encode i⟩

/-! ## Words and rows -/

/-- Settles O2: a decoded word matches its command's row, and a word that matches a row decodes to that row's command; a word that
matches none is refused. -/
theorem maskTableSelects : Obligations.MaskTableSelects := by
  refine ⟨fun w => ⟨⟨fun ⟨_, _, h⟩ => and_rowMask_of_decode h, fun h => ?_⟩, ⟨and_rowMask_of_decode, fun h => ?_⟩,
    ⟨fun ⟨_, h⟩ => and_rowMask_of_decode h, fun h => ?_⟩, ⟨fun ⟨_, h⟩ => and_rowMask_of_decode h, fun h => ?_⟩,
    ⟨fun ⟨_, h⟩ => and_rowMask_of_decode h, fun h => ?_⟩, ⟨fun ⟨_, h⟩ => and_rowMask_of_decode h, fun h => ?_⟩,
    ⟨and_rowMask_of_decode, fun h => ?_⟩⟩, fun s w hv _ _ hrow => ?_⟩
  · obtain ⟨hop, hzero⟩ := (mask_openStream w).1 h
    exact ⟨_, _, (decode_openStream hop).trans (if_pos hzero)⟩
  · obtain ⟨hop, hzero⟩ := (mask_all w 2).1 h
    exact (decode_init hop).trans (if_pos hzero)
  · obtain ⟨hop, hzero⟩ := (mask_imm w 3).1 h
    exact ⟨_, (decode_enc hop).trans (if_pos hzero)⟩
  · obtain ⟨hop, hzero⟩ := (mask_dec w).1 h
    exact ⟨_, (decode_dec hop).trans (if_pos hzero)⟩
  · obtain ⟨hop, hzero⟩ := (mask_imm w 5).1 h
    exact ⟨_, (decode_nin hop).trans (if_pos hzero)⟩
  · obtain ⟨hop, hzero⟩ := (mask_imm w 6).1 h
    exact ⟨_, (decode_nout hop).trans (if_pos hzero)⟩
  · obtain ⟨hop, hzero⟩ := (mask_all w 7).1 h
    exact (decode_run hop).trans (if_pos hzero)
  · exact step_cmd_of_refused (s := s.commanded w) hv rfl (by simp [refused, hrow])

/-- Settles O3: a refused word is `step_cmd_of_refused`'s; any other decodes to a command whose effect the step is, and no effect
writes ILL. -/
theorem refusedWordsOnlySetIll : Obligations.RefusedWordsOnlySetIll := by
  intro s w hv
  refine ⟨step_cmd_of_refused (s := s.commanded w) hv rfl, fun hexecuted => ?_⟩
  obtain ⟨i, t, hdecode, heffect⟩ := refused_eq_false_iff.1 hexecuted
  have hstep : step (s.commanded w) = exec i s := step_cmd_of_ok (s := s.commanded w) hv rfl hdecode
  refine ⟨t, ?_, (leaves_ill_buf (effectOf_ok heffect).2).1⟩
  rw [hstep, exec_eq_perform, heffect, perform]

/-- Settles O5: each word's fields, evaluated. -/
theorem sampleWordsDecode : Obligations.SampleWordsDecode := by
  unfold Obligations.SampleWordsDecode
  decide

end Sys2Proof.Proofs
end

section
/-! SUPPORT. The assembler (R58, R59): its ranges, the words of a line, and the operands they hold. -/

namespace Sys2Proof.Proofs

open Sys2Proof.Machine Sys2Proof.Claims

/-! ## Operands in and out of range -/

theorem inRange_of_mem {lo hi x : Int} (h : lo ≤ x ∧ x ≤ hi) : inRange lo hi x = some x := if_pos h

theorem inRange_of_not_mem {lo hi x : Int} (h : ¬ (lo ≤ x ∧ x ≤ hi)) : inRange lo hi x = none := if_neg h

/-- The lines of one operand emit one command in the operand's range, and nothing outside it. -/
theorem map_inRange_eq_some {α : Type} {lo hi x : Int} {f : Int → α} {a : α} :
    (inRange lo hi x).map f = some a ↔ (lo ≤ x ∧ x ≤ hi) ∧ f x = a := by
  unfold inRange
  split <;> simp [*]

/-- A field of `n` bits holds an integer modulo 2^n. -/
theorem toNat_ofInt_cast (n : Nat) (x : Int) : ((BitVec.ofInt n x).toNat : Int) = x % 2 ^ n := by
  rw [BitVec.toNat_ofInt, Int.toNat_of_nonneg (Int.emod_nonneg _ (by positivity))]
  norm_cast

theorem toNat_ofInt_of_mem {n : Nat} {x : Int} (h0 : 0 ≤ x) (h : x < 2 ^ n) : ((BitVec.ofInt n x).toNat : Int) = x := by
  rw [toNat_ofInt_cast, Int.emod_eq_of_lt h0 h]

/-- IMM holds a 12-bit sample exactly (R49). -/
theorem toInt_ofInt_imm {x : Int} (h : -2048 ≤ x ∧ x ≤ 2047) : (BitVec.ofInt 16 x).toInt = x :=
  BitVec.toInt_ofInt_eq_self (by decide) (by omega) (by omega)

/-! ## The words of a line -/

/-- Every command of a line keeps the constraints of R49. -/
theorem wellFormed_of_mem_commands {line : AsmLine} {is : List Instr} (h : line.commands = some is) :
    ∀ i ∈ is, i.wellFormed = true := by
  cases line with
  | openStream dir x =>
    obtain ⟨-, rfl⟩ := map_inRange_eq_some.1 h
    simp [Instr.wellFormed]
  | init =>
    obtain rfl := Option.some.inj h
    simp [Instr.wellFormed]
  | enc x =>
    obtain ⟨hx, rfl⟩ := map_inRange_eq_some.1 h
    simp [Instr.wellFormed, isSample12, toInt_ofInt_imm hx, hx]
  | dec x =>
    obtain ⟨-, rfl⟩ := map_inRange_eq_some.1 h
    simp [Instr.wellFormed]
  | nin x =>
    obtain ⟨-, rfl⟩ := map_inRange_eq_some.1 h
    simp [Instr.wellFormed]
  | nout x =>
    obtain ⟨hx, rfl⟩ := map_inRange_eq_some.1 h
    simp [Instr.wellFormed, isSample12, toInt_ofInt_imm hx, hx]
  | run =>
    obtain rfl := Option.some.inj h
    simp [Instr.wellFormed]
  | convert dir x =>
    obtain ⟨-, rfl⟩ := map_inRange_eq_some.1 h
    simp [Instr.wellFormed]

/-- Every word of a line decodes to one of the line's commands. -/
theorem decode_of_mem_words {line : AsmLine} {words : List Word} (h : line.words = some words) {w : Word} (hw : w ∈ words) :
    ∃ i, decode w = .ok i ∧ i.wellFormed = true := by
  obtain ⟨is, his, rfl⟩ := Option.map_eq_some_iff.1 h
  obtain ⟨i, hi, rfl⟩ := List.mem_map.1 hw
  exact ⟨i, decode_encode i, wellFormed_of_mem_commands his i hi⟩

section
variable {line : AsmLine} {lo hi x : Int} {f : Int → List Instr} (hline : line.commands = (inRange lo hi x).map f)
include hline

/-- A line whose operand is in its range emits the words of its commands. -/
theorem words_of_mem (h : lo ≤ x ∧ x ≤ hi) {words : List Word} (hwords : (f x).map encode = words) :
    line.words = some words := by
  rw [AsmLine.words, hline, inRange_of_mem h, ← hwords]
  rfl

/-- A line whose operand is outside its range emits nothing (R58). -/
theorem words_of_not_mem (h : ¬ (lo ≤ x ∧ x ≤ hi)) : line.words = none := by
  rw [AsmLine.words, hline, inRange_of_not_mem h]
  rfl

end

/-- Settles O59: a line's words are those of its commands, each decodes to its command, and the command's field holds the operand. -/
theorem assemblerEmitsCommands : Obligations.AssemblerEmitsCommands := by
  refine ⟨fun _ _ h w hw => decode_of_mem_words h hw, ⟨rfl, rfl⟩, fun dir x => ⟨fun h => ?_, fun h => ?_⟩,
    fun x => ⟨fun h => ⟨?_, ?_⟩, fun h => ⟨?_, ?_⟩, fun h => ?_, fun h => ?_, fun h => ?_, fun h => ?_⟩⟩
  · exact ⟨_, _, words_of_mem rfl h rfl, words_of_mem rfl h rfl, decode_encode _, toNat_ofInt_of_mem h.1 (by omega)⟩
  · exact ⟨words_of_not_mem rfl h, words_of_not_mem rfl h⟩
  · exact ⟨_, _, words_of_mem rfl h rfl, decode_encode _, toInt_ofInt_imm h⟩
  · exact ⟨_, _, words_of_mem rfl h rfl, decode_encode _, toInt_ofInt_imm h⟩
  · exact words_of_not_mem rfl h
  · exact words_of_not_mem rfl h
  · exact ⟨_, _, words_of_mem rfl h rfl, decode_encode _, toNat_ofInt_of_mem h.1 (by omega)⟩
  · exact words_of_not_mem rfl h
  · exact ⟨_, _, words_of_mem rfl h rfl, decode_encode _, toNat_ofInt_cast 16 x⟩
  · exact words_of_not_mem rfl h

end Sys2Proof.Proofs
end

section
/-! SUPPORT. UPDATE (R64 to R66) and Encode's code (R67), said of the registers they write: PRED as a clamped sum, IDX as a clamped
index, the code as its sign and level. -/

namespace Sys2Proof.Proofs

open Sys2Proof.Machine Sys2Proof.Claims

/-! ## UPDATE -/

/-- The step size of an IDX in the table is its entry (R61). -/
theorem stepSize_of_getElem? {P : Params} {idx : BitVec 6} {ss : Nat} (h : P.stepTable[idx.toNat]? = some ss) :
    stepSize P idx = ss := by
  simp [stepSize, List.getD, h]

theorem delta_of_positive {code : Code} (h : Code.sign code = false) (P : Params) (ss : Nat) :
    delta P code ss = recon P (Code.level code) ss := by
  simp [delta, h]

theorem delta_of_negative {code : Code} (h : Code.sign code = true) (P : Params) (ss : Nat) :
    delta P code ss = -(recon P (Code.level code) ss : Int) := by
  simp [delta, h]

/-- The new PRED is the exact sum clamped, which its 12 bits hold (R65). -/
theorem update_pred_toInt (P : Params) (c : CodecState) (code : Code) :
    (update P c code).pred.toInt = clamp (c.pred.toInt + delta P code (stepSize P c.idx)) (-2048) 2047 := by
  obtain ⟨hlo, hhi⟩ := clamp_mem (lo := -2048) (hi := 2047) (by decide) (c.pred.toInt + delta P code (stepSize P c.idx))
  exact toInt_ofInt_pred hlo hhi

/-- A code of positive sign moves PRED up by its reconstruction, stopping at 2047. -/
theorem update_pred_of_positive {code : Code} (h : Code.sign code = false) (P : Params) (c : CodecState) :
    (update P c code).pred.toInt = min (c.pred.toInt + recon P (Code.level code) (stepSize P c.idx)) 2047 := by
  have hpred := pred_mem c.pred
  rw [update_pred_toInt, delta_of_positive h, clamp]
  split_ifs <;> omega

/-- A code of negative sign moves PRED down by its reconstruction, stopping at −2048. -/
theorem update_pred_of_negative {code : Code} (h : Code.sign code = true) (P : Params) (c : CodecState) :
    (update P c code).pred.toInt = max (c.pred.toInt - recon P (Code.level code) (stepSize P c.idx)) (-2048) := by
  have hpred := pred_mem c.pred
  rw [update_pred_toInt, delta_of_negative h, clamp]
  split_ifs <;> omega

/-- The new IDX is the adapted index clamped, which its 6 bits hold under R7 (R66). -/
theorem update_idx_toNat {P : Params} (hv : P.valid = true) (c : CodecState) (code : Code) :
    ((update P c code).idx.toNat : Int) =
      clamp ((c.idx.toNat : Int) + adaptation P (Code.level code)) 0 ((P.tableSize : Int) - 1) := by
  obtain ⟨hsize, hsize64⟩ := tableSize_mem_of_valid hv
  obtain ⟨hlo, hhi⟩ := clamp_mem (lo := 0) (hi := (P.tableSize : Int) - 1) (by omega)
    ((c.idx.toNat : Int) + adaptation P (Code.level code))
  rw [update, toNat_ofInt_idx hlo (by omega), Int.toNat_of_nonneg hlo]

/-- Settles O22: PRED is `update_pred_toInt`'s clamped sum. -/
theorem predictorSaturates : Obligations.PredictorSaturates := by
  intro P c code ss
  refine ⟨stepSize_of_getElem?, fun h => delta_of_positive h P ss, fun h => delta_of_negative h P ss, ?_⟩
  simp only [update_pred_toInt, clamp]
  split_ifs <;> omega

/-- Settles O23: IDX is `update_idx_toNat`'s clamped index, and UPDATE reads only the code's level for it. -/
theorem indexAdapts : Obligations.IndexAdapts := by
  intro P c code hv
  refine ⟨update_idx_toNat hv c code, fun code' hlevel => ?_⟩
  simp only [update, Code.level, hlevel]

/-- Settles O29: every call ends in an UPDATE, which leaves IDX in the table. -/
theorem callsKeepBounds : Obligations.CallsKeepBounds := by
  intro P c calls hv hidx
  refine ⟨?_, pred_mem _⟩
  induction calls generalizing c with
  | nil => exact hidx
  | cons call rest ih =>
    cases call with
    | inl x => exact ih _ (update_idx_lt hv c _)
    | inr code => exact ih _ (update_idx_lt hv c _)

/-! ## Encode's code -/

theorem sign_encodeCode (P : Params) (c : CodecState) (x : Int) :
    Code.sign (encodeCode P c x) = decide (x - c.pred.toInt < 0) := by
  rw [Code.sign, encodeCode, BitVec.getLsbD_append]
  simp

theorem level_encodeCode (P : Params) (c : CodecState) (x : Int) :
    Code.level (encodeCode P c x) = quant P (x - c.pred.toInt).natAbs (stepSize P c.idx) :=
  extractLsb'_append_lowest _ _ rfl

/-- A code is 8·S + M (R53). -/
theorem code_toNat (code : Code) : code.toNat = (if Code.sign code then 8 else 0) + (Code.level code).toNat := by
  revert code
  decide

/-- Encode's code as the number 8·S + M, S = 1 where the sample is below PRED (R67). -/
theorem encodeCode_toNat (P : Params) (c : CodecState) (x : Int) :
    (encodeCode P c x).toNat =
      (if x < c.pred.toInt then 8 else 0) + (quant P (x - c.pred.toInt).natAbs (stepSize P c.idx)).toNat := by
  rw [code_toNat, sign_encodeCode, level_encodeCode]
  simp

/-- Settles O26, by the sign and the level of `encodeCode`. -/
theorem encodeEmitsSignAndLevel : Obligations.EncodeEmitsSignAndLevel := by
  intro P c x
  have hsign : (encodeSample P c x).1.getLsbD 3 = decide (x - c.pred.toInt < 0) := sign_encodeCode P c x
  exact ⟨by rw [hsign, decide_eq_true_iff], level_encodeCode P c x, rfl⟩

end Sys2Proof.Proofs
end

section
/-! SUPPORT. INIT, ENC and DEC: what each leaves outside RUNNING (R69 to R71), and what a word of their opcodes does. -/

namespace Sys2Proof.Proofs

open Sys2Proof.Machine Sys2Proof.Claims

/-! ## The commands -/

theorem exec_of_effectOf_ok {i : Instr} {s t : State} (h : effectOf i s = .ok t) : exec i s = .next t := by
  rw [exec_eq_perform, h, perform]

theorem sampleOperand_of_mem {imm : BitVec 16} (hlo : -2048 ≤ imm.toInt) (hhi : imm.toInt ≤ 2047) :
    sampleOperand imm = some imm.toInt :=
  if_pos ⟨hlo, hhi⟩

/-- ENC leaves Encode's state and, in RESULT, its code (R70). -/
theorem exec_enc {s : State} {imm : BitVec 16} (hrun : s.isRunning = false) (hlo : -2048 ≤ imm.toInt)
    (hhi : imm.toInt ≤ 2047) : exec (.enc imm) s = .next
      ((s.withCodec (encodeSample s.params s.codec imm.toInt).2).withResult
        ((encodeSample s.params s.codec imm.toInt).1.setWidth 32)) :=
  exec_of_effectOf_ok (by rw [effectOf, encEffect, sampleOperand_of_mem hlo hhi, gate_some hrun])

/-- Settles O14: INIT passes the gate and writes the codec's init. -/
theorem initCompletes : Obligations.InitCompletes := fun s hrun =>
  exec_of_effectOf_ok (t := s.withCodec (initCodec s.params)) (by rw [effectOf, initEffect, gate_some hrun])

/-- Settles O16: DEC passes the gate with every code, and `signExtend` is the 32-bit pattern of the signed value. -/
theorem decCompletes : Obligations.DecCompletes := fun s code hrun =>
  exec_of_effectOf_ok (t := (s.withCodec (update s.params s.codec code)).withResult
    ((update s.params s.codec code).pred.signExtend 32)) (by rw [effectOf, decEffect, gate_some hrun]; rfl)

/-- Settles O15: ENC leaves `encodeSample`'s state, whose code is the number 8·S + M. -/
theorem encCompletes : Obligations.EncCompletes := by
  intro s imm hrun hlo hhi m code c
  have htoNat : (encodeCode s.params s.codec imm.toInt).toNat = code := encodeCode_toNat s.params s.codec imm.toInt
  have hcode : encodeCode s.params s.codec imm.toInt = BitVec.ofNat 4 code := by rw [← htoNat, BitVec.ofNat_toNat]; simp
  have hresult : (encodeCode s.params s.codec imm.toInt).setWidth 32 = BitVec.ofNat 32 code := by
    rw [← htoNat, BitVec.ofNat_toNat]
  rw [exec_enc hrun hlo hhi, encodeSample, hresult, hcode]
  rfl

/-! ## The words -/

theorem opField_of_op {w : Word} {n : Nat} (h : op w = n) (hn : n < 16) : opField w = BitVec.ofNat 4 n :=
  BitVec.eq_of_toNat_eq (by rw [BitVec.toNat_ofNat, Nat.mod_eq_of_lt hn]; exact h)

/-- A word whose row of R48 asks `c` runs its command where the row matches, the block is not RUNNING and the command gets what it
needs; it is refused otherwise (R51). -/
theorem step_commanded_of_row {s t : State} {w : Word} {i : Instr} {c executed : Prop} [Decidable c] [Decidable executed]
    (hv : s.params.valid = true) (hrow : decode w = if c then .ok i else .error .reservedBits)
    (hexecuted : executed ↔ s.isRunning = false ∧ c ∧ Accepts i s) (hexec : executed → exec i s = .next t) :
    step (s.commanded w) = .next (if executed then t else { s with ill := true }) := by
  by_cases h : executed
  · obtain ⟨-, hc, -⟩ := hexecuted.1 h
    have hdecode : decode w = .ok i := hrow.trans (if_pos hc)
    have hstep : step (s.commanded w) = exec i s := step_cmd_of_ok (s := s.commanded w) hv rfl hdecode
    rw [if_pos h, hstep, hexec h]
  · have hrefused : refused s w = true := refused_eq_true_iff.2 fun j hj u hu => by
      by_cases hc : c
      · obtain rfl : i = j := by simpa [hrow, hc] using hj
        obtain ⟨hrun, haccepts⟩ := exists_effectOf_ok_iff.1 ⟨u, hu⟩
        exact h (hexecuted.2 ⟨hrun, hc, haccepts⟩)
      · simp [hrow, hc] at hj
    rw [if_neg h]
    exact step_cmd_of_refused (s := s.commanded w) hv rfl hrefused

/-- Settles O7: INIT's row, which needs nothing more of the state. -/
theorem initWord : Obligations.InitWord := by
  intro s w hv hop
  exact step_commanded_of_row hv (decode_init (opField_of_op hop (by decide))) (by simp [Accepts])
    fun h => initCompletes s h.1

/-- Settles O8: ENC's row, with an operand that must lie in −2048..2047. -/
theorem encWord : Obligations.EncWord := by
  intro s w hv hop
  have haccepts : Accepts (.enc (immField w)) s ↔ -2048 ≤ simm w ∧ simm w ≤ 2047 := by
    have hsimm : (immField w).toInt = simm w := rfl
    simp [Accepts, isSome_sampleOperand, hsimm, is12]
  refine step_commanded_of_row hv (decode_enc (opField_of_op hop (by decide))) (by rw [haccepts]) ?_
  rintro ⟨hrun, -, hlo, hhi⟩
  rw [BitVec.ofNat_toNat]
  exact exec_enc hrun hlo hhi

/-- Settles O9: DEC's row, which needs nothing more of the state. -/
theorem decWord : Obligations.DecWord := by
  intro s w hv hop
  exact step_commanded_of_row hv (decode_dec (opField_of_op hop (by decide))) (by simp [Accepts])
    fun h => decCompletes s _ h.1

end Sys2Proof.Proofs
end

section
/-! SUPPORT. QUANT and RECON of VOX-DEFAULT (R62, R63) over the starts of the levels' intervals: QUANT gives the last level that starts
at or below |delta|, and RECON lies an eighth of the step size above the level's start. -/

namespace Sys2Proof.Proofs

open Sys2Proof.Machine Sys2Proof.Claims

/-! ## The levels' starts -/

/-- The |delta| at which level `k` starts: the sum of ss, ss >> 1 and ss >> 2 over the bits of `k` that are set (R62). -/
def levelStart (k ss : Nat) : Nat :=
  (if 4 ≤ k then ss else 0) + (if 2 ≤ k % 4 then ss / 2 else 0) + (if k % 2 = 1 then ss / 4 else 0)

/-- A later level starts no earlier, and at most ss >> 2 and a rounding of 2 later. -/
theorem levelStart_succ {k : Nat} (hk : k < 7) (ss : Nat) :
    levelStart k ss ≤ levelStart (k + 1) ss ∧ levelStart (k + 1) ss ≤ levelStart k ss + ss / 4 + 2 := by
  interval_cases k <;> simp [levelStart] <;> omega

theorem levelStart_mono {k l : Nat} (hkl : k ≤ l) (hl : l ≤ 7) (ss : Nat) : levelStart k ss ≤ levelStart l ss := by
  induction l, hkl using Nat.le_induction with
  | base => exact le_refl _
  | succ l _ ih => exact (ih (by omega)).trans (levelStart_succ (by omega) ss).1

/-- Where ss is a multiple of 8 the levels start a quarter step apart. -/
theorem levelStart_eight_mul {k : Nat} (hk : k ≤ 7) (j : Nat) : levelStart k (8 * j) = 2 * j * k := by
  interval_cases k <;> simp [levelStart] <;> omega

/-! ## The quantizer -/

/-- Successive approximation gives the last level that starts at or below |delta| (R62). -/
theorem le_voxQuant_iff {k : Nat} (hk : k ≤ 7) (a ss : Nat) : k ≤ (voxQuant a ss).toNat ↔ levelStart k ss ≤ a := by
  simp only [voxQuant, BitVec.toNat_ofNat, Nat.shiftRight_eq_div_pow]
  rw [Nat.mod_eq_of_lt (by split_ifs <;> omega)]
  interval_cases k <;> simp [levelStart] <;> split_ifs <;> omega

/-- A level lies under its own |delta|. -/
theorem levelStart_voxQuant_le (a ss : Nat) : levelStart (voxQuant a ss).toNat ss ≤ a :=
  (le_voxQuant_iff (Nat.le_of_lt_succ (voxQuant a ss).isLt) a ss).1 (le_refl _)

/-- A |delta| that reaches the next level's start gets at least that level. -/
theorem lt_levelStart_of_voxQuant_lt {a ss k : Nat} (hk : k ≤ 7) (h : (voxQuant a ss).toNat < k) : a < levelStart k ss :=
  Nat.lt_of_not_le fun hstart => absurd ((le_voxQuant_iff hk a ss).2 hstart) (Nat.not_le_of_lt h)

/-- A level's three bits, from its weights (R53). -/
theorem level_bits (b2 b1 b0 : Bool) :
    let m := BitVec.ofNat 3 ((if b2 then 4 else 0) + (if b1 then 2 else 0) + (if b0 then 1 else 0))
    m.getLsbD 2 = b2 ∧ m.getLsbD 1 = b1 ∧ m.getLsbD 0 = b0 := by
  revert b2 b1 b0
  decide

/-- Settles O24: the first three facts from the levels' starts, the bits by the definition. -/
theorem quantizerLevels : Obligations.QuantizerLevels := by
  refine ⟨fun a ss _ ha => ?_, fun j k a _ hk hlo hhi => ?_, fun a b ss _ hab => ?_, fun a ss => ?_,
    fun P a ss h => quant_successive h a ss⟩
  · have hstart : levelStart 7 ss ≤ a := by simpa [levelStart] using ha
    have hle := (le_voxQuant_iff (le_refl 7) a ss).2 hstart
    exact BitVec.eq_of_toNat_eq (Nat.le_antisymm (Nat.le_of_lt_succ (voxQuant a ss).isLt) hle)
  · refine Nat.le_antisymm (Nat.le_of_lt_succ (Nat.lt_of_not_le fun hnext => ?_)) ?_
    · rw [le_voxQuant_iff (by omega), levelStart_eight_mul (by omega)] at hnext
      exact absurd hnext (Nat.not_le_of_lt hhi)
    · rwa [le_voxQuant_iff (by omega), levelStart_eight_mul (by omega)]
  · exact (le_voxQuant_iff (Nat.le_of_lt_succ (voxQuant a ss).isLt) b ss).2 ((levelStart_voxQuant_le a ss).trans hab)
  · intro r1 r2
    simpa [voxQuant, Nat.shiftRight_eq_div_pow] using level_bits (decide (a ≥ ss)) (decide (r1 ≥ ss / 2)) (decide (r2 ≥ ss / 4))

/-! ## The reconstruction -/

theorem getLsbD_level (m : BitVec 3) : m.getLsbD 2 = decide (4 ≤ m.toNat) ∧
    m.getLsbD 1 = decide (2 ≤ m.toNat % 4) ∧ m.getLsbD 0 = decide (m.toNat % 2 = 1) := by
  revert m
  decide

/-- RECON of VOX-DEFAULT lies ss >> 3 above the start of its level (R63). -/
theorem voxRecon_eq (m : BitVec 3) (ss : Nat) : voxRecon m ss = ss / 8 + levelStart m.toNat ss := by
  obtain ⟨h2, h1, h0⟩ := getLsbD_level m
  simp only [voxRecon, levelStart, h2, h1, h0, decide_eq_true_eq, Nat.shiftRight_eq_div_pow, Nat.add_assoc]

/-- Every reconstruction is non-decreasing in the level (I2). -/
theorem recon_mono (P : Params) {m m' : BitVec 3} (h : m.toNat ≤ m'.toNat) (ss : Nat) : recon P m ss ≤ recon P m' ss := by
  unfold recon
  cases P.reconstruction with
  | bitSum =>
    simp only [voxRecon_eq]
    exact Nat.add_le_add_left (levelStart_mono h (Nat.le_of_lt_succ m'.isLt) ss) _
  | table rows => exact runningSum_mono _ h
  | other k => exact runningSum_mono _ h

/-- Settles O25, from the levels' starts. -/
theorem reconstructionBounds : Obligations.ReconstructionBounds := by
  refine ⟨fun m ss => ?_, fun P m m' ss h => recon_mono P h ss, fun m j => ?_, fun m ss => ?_,
    fun P m ss h => recon_bitSum h m ss⟩
  · have htop : levelStart m.toNat ss ≤ levelStart 7 ss := levelStart_mono (Nat.le_of_lt_succ m.isLt) (le_refl 7) ss
    have hseven : levelStart 7 ss = ss + ss / 2 + ss / 4 := by simp [levelStart]
    rw [voxRecon_eq]
    omega
  · rw [voxRecon_eq, levelStart_eight_mul (Nat.le_of_lt_succ m.isLt), Nat.mul_div_cancel_left j (by decide)]
    ring
  · rw [voxRecon_eq, levelStart]
    ring

end Sys2Proof.Proofs
end

section
/-! SUPPORT. A decoder that follows an encoder: over the codes of a list of samples (R72), and over a packed block (R84 to R86). -/

namespace Sys2Proof.Proofs

open Sys2Proof.Machine Sys2Proof.Claims

/-! ## Code by code -/

/-- Decode of Encode's code leaves the state that Encode left: both are UPDATE of one code (R67, R68). -/
theorem decodeAll_encodeAll_state (P : Params) (samples : List Int) (c : CodecState) :
    (decodeAll P c (encodeAll P c samples).1).2 = (encodeAll P c samples).2 := by
  induction samples generalizing c with
  | nil => rfl
  | cons x rest ih => exact ih _

/-- The first codes of a list of samples are the codes of its first samples. -/
theorem take_encodeAll (P : Params) (samples : List Int) (c : CodecState) (k : Nat) :
    (encodeAll P c samples).1.take k = (encodeAll P c (samples.take k)).1 := by
  induction samples generalizing c k with
  | nil => simp [encodeAll]
  | cons x rest ih =>
    cases k with
    | zero => rfl
    | succ k => exact congrArg (_ :: ·) (ih _ k)

/-- The decoder's output at each step is the encoder's PRED after it. -/
theorem getElem?_decodeAll_encodeAll (P : Params) (samples : List Int) (c : CodecState) {k : Nat} (hk : k < samples.length) :
    (decodeAll P c (encodeAll P c samples).1).1[k]? = some (encodeAll P c (samples.take (k + 1))).2.pred.toInt := by
  induction samples generalizing c k with
  | nil => cases hk
  | cons x rest ih =>
    cases k with
    | zero => rfl
    | succ k => exact ih _ (Nat.lt_of_succ_lt_succ hk)

/-- Settles O27: the first k codes are those of the first k samples, so the states agree as over a whole list. -/
theorem encoderDecoderAgree : Obligations.EncoderDecoderAgree := by
  intro P c samples k hk
  refine ⟨by rw [take_encodeAll, decodeAll_encodeAll_state], fun hpos => ?_⟩
  rw [getElem?_decodeAll_encodeAll P samples c (by omega), Nat.sub_add_cancel hpos]

/-! ## Block by block -/

/-- Unpacking takes a byte back to the two codes packed into it (R84, R85). -/
theorem unpack_pack (a b : Code) : unpack (pack a b) = (a, b) :=
  Prod.ext (BitVec.extractLsb'_append_eq_left) (extractLsb'_append_lowest a b rfl)

theorem unpackAll_packAll : ∀ {codes : List Code}, codes.length % 2 = 0 → unpackAll (packAll codes) = codes
  | [], _ => rfl
  | [_], h => by cases h
  | a :: b :: rest, h => by
    have heven : rest.length % 2 = 0 := by simp only [List.length_cons] at h; omega
    rw [packAll, unpackAll, unpack_pack, unpackAll_packAll heven]

/-- Settles O45: the padding makes the number of codes even, so that unpacking gives back every code that was packed. -/
theorem decoderTracksEncodedBlock : Obligations.DecoderTracksEncodedBlock := by
  intro P w w' c bytes
  have heven : (encodeAll P c (padded P w ((externalSamples P w bytes).map (toInternal P w)))).1.length % 2 = 0 := by
    rw [length_encodeAll, length_padded]
    omega
  simp only [encodeBlock, decodeBlock]
  rw [unpackAll_packAll heven, decodeAll_encodeAll_state]

end Sys2Proof.Proofs
end

section
/-! SUPPORT. The engine in profile VOX-DEFAULT (R6): how IDX saturates (R74), the corner cases of ENC and DEC (R70, R71), and how near
ENC comes to its sample (R75). -/

namespace Sys2Proof.Proofs

open Sys2Proof.Machine Sys2Proof.Claims

/-! ## The tables of VOX-DEFAULT -/

/-- The adaptation of R22: down by 1 on levels up to 3, up by 2, 4, 6 and 8 above. -/
theorem adaptation_vox (m : BitVec 3) :
    adaptation Params.voxDefault m = if m.toNat ≤ 3 then -1 else 2 * ((m.toNat : Int) - 3) := by
  revert m
  decide

theorem update_vox_idx (c : CodecState) (code : Code) : ((update Params.voxDefault c code).idx.toNat : Int) =
    clamp ((c.idx.toNat : Int) +
      if (Code.level code).toNat ≤ 3 then -1 else 2 * (((Code.level code).toNat : Int) - 3)) 0 48 := by
  rw [update_idx_toNat (by decide), adaptation_vox]
  rfl

/-- A level of at most 3 lowers IDX by 1, stopping at 0. -/
theorem update_vox_idx_of_low {c : CodecState} {code : Code} (hidx : c.idx.toNat ≤ 48) (hlow : (Code.level code).toNat ≤ 3) :
    (update Params.voxDefault c code).idx.toNat = c.idx.toNat - 1 := by
  have h := update_vox_idx c code
  rw [if_pos hlow, clamp] at h
  split_ifs at h <;> omega

/-- A level m of at least 4 raises IDX by 2(m − 3), stopping at 48. -/
theorem update_vox_idx_of_high {c : CodecState} {code : Code} (hhigh : 4 ≤ (Code.level code).toNat) :
    (update Params.voxDefault c code).idx.toNat = min (c.idx.toNat + 2 * ((Code.level code).toNat - 3)) 48 := by
  have h := update_vox_idx c code
  rw [if_neg (by omega), clamp] at h
  split_ifs at h <;> omega

/-- Every step size of R21 is at least 16. -/
theorem sixteen_le_stepSize_vox {idx : BitVec 6} (h : idx.toNat < 49) : 16 ≤ stepSize Params.voxDefault idx := by
  have hall : ∀ ss ∈ voxStepTable, 16 ≤ ss := by decide
  have hlt : idx.toNat < voxStepTable.length := h
  rw [stepSize_of_getElem? (List.getElem?_eq_getElem hlt)]
  exact hall _ (List.getElem_mem hlt)

/-! ## IDX over a sequence of codes -/

theorem decodeAll_vox_idx_of_seven (codes : List Code) (c : CodecState) (hidx : c.idx.toNat ≤ 48)
    (hseven : ∀ x ∈ codes, Code.level x = 7) :
    (decodeAll Params.voxDefault c codes).2.idx.toNat = min (c.idx.toNat + 8 * codes.length) 48 := by
  induction codes generalizing c with
  | nil => simpa [decodeAll] using hidx
  | cons x rest ih =>
    obtain ⟨hx, hrest⟩ := List.forall_mem_cons.1 hseven
    have hstep := update_vox_idx_of_high (c := c) (code := x) (by rw [hx]; decide)
    rw [hx, show (7 : BitVec 3).toNat = 7 from rfl] at hstep
    calc _ = min ((update Params.voxDefault c x).idx.toNat + 8 * rest.length) 48 := ih _ (by omega) hrest
      _ = _ := by rw [hstep, List.length_cons]; omega

theorem decodeAll_vox_idx_of_low (codes : List Code) (c : CodecState) (hidx : c.idx.toNat ≤ 48)
    (hlow : ∀ x ∈ codes, (Code.level x).toNat ≤ 3) :
    (decodeAll Params.voxDefault c codes).2.idx.toNat = c.idx.toNat - codes.length := by
  induction codes generalizing c with
  | nil => rfl
  | cons x rest ih =>
    obtain ⟨hx, hrest⟩ := List.forall_mem_cons.1 hlow
    have hstep := update_vox_idx_of_low hidx hx
    calc _ = (update Params.voxDefault c x).idx.toNat - rest.length := ih _ (by omega) hrest
      _ = _ := by rw [hstep, List.length_cons]; omega

/-- Settles O30, by induction over the codes from any IDX up to 48. -/
theorem indexSaturates : Obligations.IndexSaturates := by
  refine ⟨fun c codes hzero hseven => ?_, fun c codes hidx hlow => decodeAll_vox_idx_of_low codes c hidx hlow⟩
  rw [decodeAll_vox_idx_of_seven codes c (by simp [hzero]) hseven]
  simp [hzero]

/-! ## Corner cases -/

/-- A zero |delta| has level 0, where the step size is at least 4. -/
theorem voxQuant_zero {ss : Nat} (h : 4 ≤ ss) : voxQuant 0 ss = 0 := by
  have hstart : 0 < levelStart 1 ss := by simp [levelStart]; omega
  refine BitVec.eq_of_toNat_eq (Nat.lt_one_iff.1 (Nat.lt_of_not_le fun hle => ?_))
  exact absurd ((le_voxQuant_iff (by decide) 0 ss).1 hle) (by omega)

/-- Settles O28: every reconstruction is at least ss >> 3, which the table makes at least 2. -/
theorem codeCornerCases : Obligations.CodeCornerCases := by
  intro c code hidx P e
  have hss : 16 ≤ stepSize P c.idx := sixteen_le_stepSize_vox hidx
  have he : e = ((stepSize P c.idx / 8 : Nat) : Int) := rfl
  have hrecon : ∀ m, recon P m (stepSize P c.idx) = stepSize P c.idx / 8 + levelStart m.toNat (stepSize P c.idx) :=
    fun m => (recon_bitSum rfl m _).trans (voxRecon_eq m _)
  have hzero : recon P 0 (stepSize P c.idx) = stepSize P c.idx / 8 := by rw [hrecon]; simp [levelStart]
  refine ⟨?_, ?_, ?_, fun hfixed => ?_, fun hmax => ?_, fun hmin => ?_, fun hidx48 hhigh => ?_, fun hidx0 hlow => ?_⟩
  · refine BitVec.eq_of_toNat_eq ?_
    rw [encodeCode_toNat, quant_successive rfl, Int.sub_self, Int.natAbs_zero, voxQuant_zero (by omega)]
    simp
  · rw [update_pred_of_positive (by decide), show Code.level 0 = 0 by decide, hzero, he]
  · rw [update_pred_of_negative (by decide), show Code.level 8 = 0 by decide, hzero, he]
  · have hfixed := congrArg BitVec.toInt hfixed
    cases hsign : Code.sign code with
    | false =>
      rw [update_pred_of_positive hsign, hrecon] at hfixed
      omega
    | true =>
      rw [update_pred_of_negative hsign, hrecon] at hfixed
      omega
  · rw [update_pred_of_positive (by decide)]
    omega
  · rw [update_pred_of_negative (by decide)]
    omega
  · refine BitVec.eq_of_toNat_eq ((update_vox_idx_of_high hhigh).trans ?_)
    simp [hidx48]
  · refine BitVec.eq_of_toNat_eq ((update_vox_idx_of_low (by simp [hidx0]) hlow).trans ?_)
    simp [hidx0]

/-! ## The error of ENC -/

/-- While the quantizer is not saturated, the reconstruction lies within ss >> 3 and a rounding of 2 of |delta| (R75). -/
theorem voxRecon_voxQuant_near {a ss : Nat} (h : a ≤ voxRecon 7 ss + ss / 8) :
    a ≤ voxRecon (voxQuant a ss) ss + (ss / 8 + 2) ∧ voxRecon (voxQuant a ss) ss ≤ a + (ss / 8 + 2) := by
  have hstart := levelStart_voxQuant_le a ss
  rw [voxRecon_eq (voxQuant a ss)]
  rcases Nat.lt_or_ge (voxQuant a ss).toNat 7 with hlt | hge
  · have hnext : a < levelStart ((voxQuant a ss).toNat + 1) ss :=
      lt_levelStart_of_voxQuant_lt (Nat.succ_le_of_lt hlt) (Nat.lt_succ_self _)
    have hgap := (levelStart_succ hlt ss).2
    omega
  · have hseven : voxQuant a ss = 7 := BitVec.eq_of_toNat_eq (Nat.le_antisymm (Nat.le_of_lt_succ (voxQuant a ss).isLt) hge)
    rw [voxRecon_eq] at h
    rw [hseven] at hstart ⊢
    omega

/-- The delta of Encode's code lies as far from s − PRED as the reconstruction of its level from |s − PRED|. -/
theorem natAbs_sub_delta_encodeCode (P : Params) (c : CodecState) (x : Int) (ss : Nat) :
    (x - (c.pred.toInt + delta P (encodeCode P c x) ss)).natAbs =
      (((x - c.pred.toInt).natAbs : Int) - recon P (Code.level (encodeCode P c x)) ss).natAbs := by
  by_cases hneg : x - c.pred.toInt < 0
  · rw [delta_of_negative (by rw [sign_encodeCode]; exact decide_eq_true hneg)]
    omega
  · rw [delta_of_positive (by rw [sign_encodeCode]; exact decide_eq_false hneg)]
    omega

/-- While QUANT is not saturated, Encode's delta lies within (ss >> 3) + 2 of s − PRED (R75). -/
theorem encodeCode_near {P : Params} (hquant : P.quantizer = .successive) (hrecon : P.reconstruction = .bitSum)
    {c : CodecState} {x : Int} (h : (x - c.pred.toInt).natAbs ≤ voxRecon 7 (stepSize P c.idx) + stepSize P c.idx / 8) :
    (x - (c.pred.toInt + delta P (encodeCode P c x) (stepSize P c.idx))).natAbs ≤ stepSize P c.idx / 8 + 2 := by
  rw [natAbs_sub_delta_encodeCode, level_encodeCode, quant_successive hquant, recon_bitSum hrecon]
  have hnear := voxRecon_voxQuant_near h
  omega

/-- The clamp brings no value further away from one inside its range. -/
theorem natAbs_sub_clamp_le {lo hi x : Int} (hlo : lo ≤ x) (hhi : x ≤ hi) (y : Int) :
    (x - clamp y lo hi).natAbs ≤ (x - y).natAbs := by
  unfold clamp
  split_ifs <;> omega

/-- The code that ENC leaves in RESULT is its low four bits (R70). -/
theorem extractLsb'_setWidth_code (code : Code) : (code.setWidth 32).extractLsb' 0 4 = code :=
  (BitVec.extractLsb'_setWidth_of_le (by decide)).trans BitVec.extractLsb'_eq_self

/-- Settles O31: the exact sum is as near as `encodeCode_near` says, and the clamp brings it no further away. -/
theorem unsaturatedErrorBound : Obligations.UnsaturatedErrorBound := by
  intro s imm hvox hrun _ hlo hhi ss hunsaturated
  have hsum : (imm.toInt - (s.pred.toInt + delta s.params (encodeCode s.params s.codec imm.toInt) ss)).natAbs ≤ ss / 8 + 2 :=
    encodeCode_near (c := s.codec) (by rw [hvox]; rfl) (by rw [hvox]; rfl) hunsaturated
  refine ⟨_, exec_enc hrun hlo hhi, ?_, ?_⟩
  · rwa [State.withResult_result, encodeSample, extractLsb'_setWidth_code]
  · rw [State.withResult_pred, State.withCodec_pred, encodeSample, update_pred_toInt]
    exact (natAbs_sub_clamp_le hlo hhi _).trans hsum

end Sys2Proof.Proofs
end

section
/-! SUPPORT. The normalizer (42_normalizer.md): its four functions as arithmetic, for every parameter set and in VOX-DEFAULT, then NIN and
NOUT and what a word of their opcodes does. -/

namespace Sys2Proof.Proofs

open Sys2Proof.Machine Sys2Proof.Claims

/-! ## Division and truncation of words -/

/-- What R9's `÷` leaves lies on the side of zero of the operand, and the remainder is smaller than the divisor. -/
theorem tdiv_bounds (a : Int) {b : Int} (hb : 0 < b) :
    (0 ≤ a → b * Int.tdiv a b ≤ a ∧ a < b * Int.tdiv a b + b) ∧
    (a ≤ 0 → a ≤ b * Int.tdiv a b ∧ b * Int.tdiv a b - b < a) := by
  refine ⟨fun ha => ⟨Int.mul_tdiv_self_le ha, Int.lt_mul_tdiv_self_add hb⟩, fun ha => ?_⟩
  have hle := Int.mul_tdiv_self_le (k := b) (Int.neg_nonneg_of_nonpos ha)
  have hlt := Int.lt_mul_tdiv_self_add (x := -a) hb
  rw [Int.neg_tdiv, Int.mul_neg] at hle hlt
  omega

/-- Cutting an integer's pattern to fewer bits is its pattern in that many bits. -/
theorem setWidth_ofInt_of_le {m n : Nat} (h : m ≤ n) (x : Int) : (BitVec.ofInt n x).setWidth m = BitVec.ofInt m x := by
  have hcast : (((BitVec.ofInt n x).setWidth m).toNat : Int) = (BitVec.ofInt m x).toNat := by
    rw [BitVec.toNat_setWidth, Int.natCast_mod, toNat_ofInt_cast, toNat_ofInt_cast]
    exact_mod_cast Int.emod_emod_of_dvd x (pow_dvd_pow 2 h)
  exact BitVec.eq_of_toNat_eq (by exact_mod_cast hcast)

/-! ## Inward (R76, R77) -/

theorem toInternal16_of_truncate {P : Params} (h : P.divMode = .truncate) (x : Int) :
    toInternal16 P x = Int.tdiv x P.in16Div := by rw [toInternal16, h, divide]

theorem toInternal8_vox (u : Int) : toInternal8 Params.voxDefault u = (u - 128) * 16 := rfl

theorem toInternal16_vox (x : Int) : toInternal16 Params.voxDefault x = Int.tdiv x 16 := rfl

theorem toInternal16_vox_mem {x : Int} (hlo : -32768 ≤ x) (hhi : x ≤ 32767) :
    -2048 ≤ toInternal16 Params.voxDefault x ∧ toInternal16 Params.voxDefault x ≤ 2047 := by
  have hdiv := tdiv_bounds x (b := 16) (by decide)
  rw [toInternal16_vox]
  omega

/-- Settles O32: `÷` truncates, and its two bounds give the ranges at the defaults. -/
theorem inwardNormalization : Obligations.InwardNormalization := by
  refine ⟨fun P u x htrunc hdiv => ⟨rfl, ?_⟩, fun u hlo hhi => ?_, fun x hlo hhi => ?_⟩
  · rw [toInternal16_of_truncate htrunc]
    exact tdiv_bounds x (by exact_mod_cast hdiv)
  · rw [toInternal8_vox]
    omega
  · obtain ⟨hmin, hmax⟩ := toInternal16_vox_mem hlo hhi
    exact ⟨hmin, hmax, tdiv_bounds x (by decide)⟩

/-! ## Outward (R78, R79) -/

theorem fromInternal8_toNat (P : Params) (v : Int) :
    ((fromInternal8 P v).toNat : Int) = (divide P.divMode v P.out8Div + P.bias8) % 256 := toNat_ofInt_cast 8 _

theorem fromInternal16_toNat (P : Params) (v : Int) : ((fromInternal16 P v).toNat : Int) = (v * P.out16Scale) % 65536 :=
  toNat_ofInt_cast 16 _

theorem fromInternal16_toInt (P : Params) (v : Int) : (fromInternal16 P v).toInt = Int.bmod (v * P.out16Scale) 65536 :=
  BitVec.toInt_ofInt _

/-- At the defaults the sum of R78 lies in 64..191, so that it is the byte itself. -/
theorem fromInternal8_vox_toNat {v : Int} (hlo : -2048 ≤ v) (hhi : v ≤ 2047) :
    ((fromInternal8 Params.voxDefault v).toNat : Int) = Int.tdiv v 32 + 128 := by
  have hdiv := tdiv_bounds v (b := 32) (by decide)
  exact (fromInternal8_toNat _ v).trans (Int.emod_eq_of_lt (a := Int.tdiv v 32 + 128) (by omega) (by omega))

/-- At the defaults no 12-bit value wraps (R79). -/
theorem fromInternal16_vox_toInt {v : Int} (hlo : -2048 ≤ v) (hhi : v ≤ 2047) :
    (fromInternal16 Params.voxDefault v).toInt = v * 16 :=
  BitVec.toInt_ofInt_eq_self (n := v * 16) (by decide) (by omega) (by omega)

/-- Settles O33: the patterns of the two fields, which at the defaults hold the exact values. -/
theorem outwardNormalization : Obligations.OutwardNormalization := by
  refine ⟨fun P v htrunc => ⟨?_, fromInternal16_toNat P v⟩, fun v hlo hhi => ⟨?_, fromInternal16_vox_toInt hlo hhi⟩⟩
  · rw [fromInternal8_toNat, htrunc, divide]
  · have hdiv := tdiv_bounds v (b := 32) (by decide)
    rw [fromInternal8_vox_toNat hlo hhi]
    simp only [Int.add_sub_cancel]
    omega

/-- Settles O34: the value between the two normalizers lies in −2048..2047, where the outward one is exact. -/
theorem normalizerRoundTrips : Obligations.NormalizerRoundTrips := by
  refine ⟨fun x hlo hhi => ?_, fun u hlo hhi => ?_⟩
  · obtain ⟨hmin, hmax⟩ := toInternal16_vox_mem hlo hhi
    have hdiv := tdiv_bounds x (b := 16) (by decide)
    rw [fromInternal16_vox_toInt hmin hmax, toInternal16_vox]
    exact ⟨rfl, Int.tdiv_mul_cancel, fun hndvd => by omega⟩
  · rw [toInternal8_vox, fromInternal8_vox_toNat (by omega) (by omega)]
    exact congrArg (· + 128) (Int.mul_tdiv_mul_of_pos_left (u - 128) 2 (by decide))

/-! ## The commands -/

section
variable {s : State} {width : Width} {imm : BitVec 16} (hrun : s.isRunning = false) (hwidth : s.cfgWidth = width)
include hrun hwidth

/-- NIN leaves the normalized operand in RESULT (R80). -/
theorem exec_nin {x : Int} (hoperand : externalOperand width imm = some x) :
    exec (.nin imm) s = .next (s.withResult (BitVec.ofInt 32 (toInternal s.params width x))) := by
  subst hwidth
  exact exec_of_effectOf_ok (by rw [effectOf, ninEffect, hoperand, gate_some hrun])

/-- NOUT leaves the external sample in RESULT (R81). -/
theorem exec_nout (hlo : -2048 ≤ imm.toInt) (hhi : imm.toInt ≤ 2047) :
    exec (.nout imm) s = .next (s.withResult (outResult s.params width imm.toInt)) := by
  subst hwidth
  exact exec_of_effectOf_ok (by rw [effectOf, noutEffect, sampleOperand_of_mem hlo hhi, gate_some hrun])

end

theorem externalOperand_w8 {imm : BitVec 16} (h : imm.extractLsb' 8 8 = 0) :
    externalOperand .w8 imm = some ((imm.extractLsb' 0 8).toNat : Int) := if_pos h

/-- A byte is a legal operand at width 8, and is its own value (R49). -/
theorem externalOperand_w8_of_lt {imm : BitVec 16} (h : imm.toNat < 256) : externalOperand .w8 imm = some (imm.toNat : Int) := by
  have hhigh : imm.extractLsb' 8 8 = 0 := BitVec.eq_of_toNat_eq (by simp; omega)
  have hlow : (imm.extractLsb' 0 8).toNat = imm.toNat := by simp; omega
  rw [externalOperand_w8 hhigh, hlow]

theorem outResult_w8 (P : Params) (v : Int) : outResult P .w8 v = BitVec.ofNat 32 (fromInternal8 P v).toNat :=
  (BitVec.ofNat_toNat 32 _).symm

theorem outResult_w16 (P : Params) (v : Int) : outResult P .w16 v = BitVec.ofInt 32 (fromInternal16 P v).toInt := rfl

/-- Settles O17: the operand at each width. -/
theorem ninCompletes : Obligations.NinCompletes := fun _ _ hrun =>
  ⟨fun hwidth hbyte => exec_nin hrun hwidth (externalOperand_w8_of_lt hbyte), fun hwidth => exec_nin hrun hwidth rfl⟩

/-- Settles O18: RESULT at each width, as the number it extends. -/
theorem noutCompletes : Obligations.NoutCompletes := by
  refine fun s imm hrun hlo hhi => ⟨fun hwidth => ?_, fun hwidth => ?_⟩
  · rw [exec_nout hrun hwidth hlo hhi, outResult_w8, ← BitVec.ofInt_natCast, fromInternal8_toNat]
    rfl
  · rw [exec_nout hrun hwidth hlo hhi, outResult_w16, fromInternal16_toInt]
    rfl

/-- At the defaults every legal operand of NIN gives a 12-bit value (R80). -/
theorem toInternal_vox_mem {width : Width} {imm : BitVec 16} {x : Int} (h : externalOperand width imm = some x) :
    -2048 ≤ toInternal Params.voxDefault width x ∧ toInternal Params.voxDefault width x ≤ 2047 := by
  cases width with
  | w8 =>
    obtain ⟨-, hx⟩ := Option.ite_none_right_eq_some.1 h
    obtain rfl : ((imm.extractLsb' 0 8).toNat : Int) = x := Option.some.inj hx
    have hlt := (imm.extractLsb' 0 8).isLt
    rw [toInternal, toInternal8_vox]
    omega
  | w16 =>
    obtain rfl : imm.toInt = x := Option.some.inj h
    exact toInternal16_vox_mem (BitVec.le_toInt imm) (Int.le_of_lt_add_one BitVec.toInt_lt)

/-- The low 16 bits of RESULT hold a 12-bit value exactly (R80). -/
theorem toInt_setWidth_ofInt {x : Int} (hlo : -2048 ≤ x) (hhi : x ≤ 2047) :
    ((BitVec.ofInt 32 x).setWidth 16).toInt = x := by
  rw [setWidth_ofInt_of_le (by decide), toInt_ofInt_imm ⟨hlo, hhi⟩]

/-- Settles O35: the low 16 bits of NIN's RESULT are the pattern of a 12-bit value, which ENC accepts. -/
theorem ninResultFeedsEnc : Obligations.NinResultFeedsEnc := by
  intro s imm hvox hrun hill hbyte
  obtain ⟨x, hx⟩ : ∃ x, externalOperand s.cfgWidth imm = some x := by
    cases hwidth : s.cfgWidth with
    | w8 => exact ⟨_, externalOperand_w8_of_lt (hbyte hwidth)⟩
    | w16 => exact ⟨_, rfl⟩
  obtain ⟨hlo, hhi⟩ := toInternal_vox_mem hx
  rw [← hvox] at hlo hhi
  have hoperand := toInt_setWidth_ofInt hlo hhi
  exact ⟨_, _, exec_nin hrun rfl hx, exec_enc hrun (hlo.trans_eq hoperand.symm) (hoperand.trans_le hhi), hill⟩

/-! ## The words -/

/-- Settles O10: NIN's row, with a byte as operand at width 8 and any operand at width 16. -/
theorem ninWord : Obligations.NinWord := by
  intro s w hv hop
  have hrow := decode_nin (opField_of_op hop (by decide))
  have hhigh : (immField w).extractLsb' 8 8 = w.extractLsb' 8 8 := BitVec.extractLsb'_extractLsb'_of_le (by decide)
  have hlow : (immField w).extractLsb' 0 8 = w.extractLsb' 0 8 := BitVec.extractLsb'_extractLsb'_of_le (by decide)
  refine ⟨fun hwidth => ?_, fun hwidth => ?_⟩
  · refine step_commanded_of_row hv hrow (by simp [Accepts, isSome_externalOperand, hwidth, hhigh]) ?_
    rintro ⟨hrun, -, hbyte⟩
    rw [exec_nin hrun hwidth (externalOperand_w8 (hhigh.trans hbyte)), hlow]
    rfl
  · refine step_commanded_of_row hv hrow (by simp [Accepts, isSome_externalOperand, hwidth]) ?_
    exact fun ⟨hrun, _⟩ => exec_nin hrun hwidth rfl

/-- Settles O11: NOUT's row, with an operand that must lie in −2048..2047. -/
theorem noutWord : Obligations.NoutWord := by
  intro s w hv hop
  have haccepts : Accepts (.nout (immField w)) s ↔ -2048 ≤ simm w ∧ simm w ≤ 2047 := by
    have hsimm : (immField w).toInt = simm w := rfl
    simp [Accepts, isSome_sampleOperand, hsimm, is12]
  refine step_commanded_of_row hv (decode_nout (opField_of_op hop (by decide))) (by rw [haccepts]) ?_
  rintro ⟨hrun, -, hlo, hhi⟩
  split
  next hwidth =>
    rw [← outResult_w8]
    exact exec_nout hrun hwidth hlo hhi
  next hwidth => exact exec_nout hrun hwidth hlo hhi

end Sys2Proof.Proofs
end

section
/-! SUPPORT. The packer (R84 to R88): a byte and its two codes, the code that pads an odd block, and how many bytes and samples a block
and a stream convert to. -/

namespace Sys2Proof.Proofs

open Sys2Proof.Machine Sys2Proof.Claims

/-! ## Bytes and codes -/

theorem pack_toNat (a b : Code) : (pack a b).toNat = 16 * a.toNat + b.toNat :=
  calc (pack a b).toNat = a.toNat <<< 4 ||| b.toNat := BitVec.toNat_append a b
    _ = a.toNat <<< 4 + b.toNat := (Nat.shiftLeft_add_eq_or_of_lt b.isLt _).symm
    _ = 16 * a.toNat + b.toNat := by rw [Nat.shiftLeft_eq, Nat.mul_comm]

/-- Settles O36: a byte is its high nibble appended to its low one. -/
theorem packUnpack : Obligations.PackUnpack :=
  ⟨fun a b => ⟨pack_toNat a b, unpack_pack a b⟩, fun _ => ⟨rfl, BitVec.extractLsb'_append_extractLsb'⟩, fun _ _ => rfl⟩

/-- After an even number of codes no nibble is pending (R88), so what follows is packed on its own. -/
theorem packAll_append {codes : List Code} (more : List Code) (heven : codes.length % 2 = 0) :
    packAll (codes ++ more) = packAll codes ++ packAll more := by
  match codes, heven with
  | [], _ => rfl
  | [_], h => cases h
  | a :: b :: rest, h =>
    have hrest : rest.length % 2 = 0 := by simp only [List.length_cons] at h; omega
    exact congrArg (pack a b :: ·) (packAll_append more hrest)

/-- A code that follows an odd number of codes is the low nibble of the last byte, beside the last of them (R86). -/
theorem getLast?_packAll_of_odd {codes : List Code} (hodd : codes.length % 2 = 1) (b : Code) :
    ∃ a, codes.getLast? = some a ∧ (packAll (codes ++ [b])).getLast? = some (pack a b) := by
  rcases List.eq_nil_or_concat' codes with rfl | ⟨init, a, rfl⟩
  · cases hodd
  · have heven : init.length % 2 = 0 := by simp only [List.length_append, List.length_singleton] at hodd; omega
    refine ⟨a, List.getLast?_concat, ?_⟩
    rw [List.append_assoc, packAll_append _ heven]
    exact List.getLast?_concat

/-! ## The padding of a block -/

theorem encodeAll_concat (P : Params) (samples : List Int) (x : Int) (c : CodecState) :
    encodeAll P c (samples ++ [x]) =
      ((encodeAll P c samples).1 ++ [encodeCode P (encodeAll P c samples).2 x],
        update P (encodeAll P c samples).2 (encodeCode P (encodeAll P c samples).2 x)) := by
  induction samples generalizing c with
  | nil => rfl
  | cons y rest ih => simp only [List.cons_append, encodeAll, ih]

theorem padSample_eq_padding (P : Params) (w : Width) : padSample P w = padding P w := by
  cases hdomain : P.padDomain with
  | working => simp only [padSample, padding, hdomain]
  | external => cases w <;> simp only [padSample, padding, hdomain, toInternal]

theorem padded_of_odd {samples : List Int} (hodd : samples.length % 2 = 1) (P : Params) (w : Width) :
    padded P w samples = samples ++ [padding P w] := by
  rw [padded, if_pos hodd, padSample_eq_padding]

theorem padded_of_even {samples : List Int} (heven : samples.length % 2 = 0) (P : Params) (w : Width) :
    padded P w samples = samples :=
  if_neg (by omega)

/-- Settles O38: Encode of the padding sample comes last, after an odd number of codes. -/
theorem oddBlockPadding : Obligations.OddBlockPadding := by
  intro P w c bytes samples codes c1 z
  have hblock : encodeBlock P w c bytes =
      (packAll (encodeAll P c (padded P w samples)).1, (encodeAll P c (padded P w samples)).2) := rfl
  refine ⟨fun hworking => ?_, fun hexternal => ?_, fun hodd => ?_, fun heven => ?_⟩
  · simp only [z, padding, hworking]
  · cases w <;> simp only [z, padding, hexternal]
  · rw [padded_of_odd hodd, encodeAll_concat] at hblock
    refine ⟨hblock, ?_⟩
    rw [hblock]
    exact getLast?_packAll_of_odd ((congrArg (· % 2) (length_encodeAll P samples c)).trans hodd) _
  · rw [hblock, padded_of_even heven]

/-! ## The sizes of a stream -/

/-- A stream encodes to half a byte a sample: each block before the last fills its bytes, so only the last is padded (R87). -/
theorem length_convertBlocks_encode (P : Params) (w : Width) {full : List (List Byte)}
    (hfull : ∀ b ∈ full, b.length % (2 * widthBytes w) = 0) (last : List Byte) (c : CodecState) :
    (convertBlocks P .encode w c (full ++ [last])).1.length = ((full.flatten ++ last).length / widthBytes w + 1) / 2 := by
  induction full generalizing c with
  | nil =>
    rw [← length_encodeBlock P w c]
    exact congrArg List.length (List.append_nil _)
  | cons block rest ih =>
    obtain ⟨hblock, hrest⟩ := List.forall_mem_cons.1 hfull
    calc (convertBlocks P .encode w c (block :: rest ++ [last])).1.length
        = (encodeBlock P w c block).1.length
            + (convertBlocks P .encode w (encodeBlock P w c block).2 (rest ++ [last])).1.length := List.length_append
      _ = (block.length / widthBytes w + 1) / 2 + ((rest.flatten ++ last).length / widthBytes w + 1) / 2 := by
          rw [length_encodeBlock, ih hrest]
      _ = (((block :: rest).flatten ++ last).length / widthBytes w + 1) / 2 := by
          rw [List.flatten_cons, List.append_assoc, List.length_append (as := block)]
          cases w <;> simp only [widthBytes] at hblock ⊢ <;> omega

/-- Settles O37: the blocks' sizes, and the stream's by induction over its full blocks. -/
theorem blockCounts : Obligations.BlockCounts := by
  refine ⟨fun P w c bytes => ⟨length_encodeBlock P w c bytes, length_decodeBlock P w c bytes⟩, ?_⟩
  rintro P w c d full last n hfull rfl
  have hbytes := length_convertBlocks_encode P w hfull last c
  exact ⟨hbytes, by rw [length_decodeBlock, hbytes]⟩

end Sys2Proof.Proofs
end

section
/-! SUPPORT. OPEN and RUN: what each leaves outside RUNNING (R90 to R93), what a word of their opcodes does, and the size of the
read requests of the stream they start (R94). -/

namespace Sys2Proof.Proofs

open Sys2Proof.Machine Sys2Proof.Claims

/-! ## OPEN -/

/-- Where the allocation can fail, the host's report decides and is used up (R92, log 9). -/
theorem allocateBuffer_of_report {s : State} {ok : Bool} (hmay : s.params.allocMayFail = true)
    (hreport : s.allocReport = some ok) : s.allocateBuffer = (ok, { s with allocReport := none }) := by
  simp [State.allocateBuffer, hmay, hreport]

/-- Where the host made no report, the outcome is drawn (log 9). -/
theorem allocateBuffer_of_no_report {s : State} (hmay : s.params.allocMayFail = true) (hreport : s.allocReport = none) :
    s.allocateBuffer = (Config.allocOk s.params.base s.draws, { s with draws := s.draws + 1 }) := by
  simp [State.allocateBuffer, hmay, hreport]

/-- OPEN is READY or FAILED by the allocation it makes after its other writes (R90). -/
theorem exec_openStream {s u : State} {dir : Dir} {v : BitVec 8} {ok : Bool} (hrun : s.isRunning = false)
    (halloc : (s.configured dir v).allocateBuffer = (ok, u)) :
    exec (.openStream dir v) s = .next (if ok then u.withCtl .ready else u.fatal .alloc) :=
  exec_of_effectOf_ok (by rw [effectOf, openEffect, gate_some hrun, halloc])

/-- Settles O19: the allocation succeeds, and the width is `resolveWidth`'s. -/
theorem openCompletes : Obligations.OpenCompletes := by
  intro s dir v hrun hcannot
  have h8 : v.toNat = 8 ↔ v = 8 := BitVec.toNat_inj (y := 8)
  have h16 : v.toNat = 16 ↔ v = 16 := BitVec.toNat_inj (y := 16)
  rw [exec_openStream hrun (allocateBuffer_of_cannot_fail (s := s.configured dir v) hcannot), if_pos rfl, State.configured,
    resolveWidth_fst, resolveWidth_snd]
  simp only [h8, h16, ne_eq]
  rfl

/-! ## RUN -/

/-- Settles O20: RUN passes the gate in READY. -/
theorem runCompletes : Obligations.RunCompletes := by
  intro s hready
  have hrun : s.isRunning = false := by simp [State.isRunning, hready]
  exact exec_of_effectOf_ok (by rw [effectOf, runEffect, gate_some hrun]; exact if_pos hready)

/-- Settles O39: `reqBytes` at each direction and width. -/
theorem requestSizes : Obligations.RequestSizes := by
  intro s hwait
  refine outstanding_eq_streamRead.2 ⟨hwait, ?_⟩
  cases hdir : s.cfgDir with
  | encode =>
    cases hwidth : s.cfgWidth with
    | w8 => simp only [reqBytes, hdir, hwidth, widthBytes, Nat.mul_one]
    | w16 => simp only [reqBytes, hdir, hwidth, widthBytes, Nat.mul_comm]
  | decode => simp only [reqBytes, hdir]

/-! ## The words -/

/-- Settles O12: OPEN's row, which needs nothing more of the state; then the allocation's outcomes. -/
theorem openWord : Obligations.OpenWord := by
  intro s w hv hop opened
  have hconfigured : s.configured (dirField w) (widField w) = opened := by
    rw [State.configured, resolveWidth_fst, resolveWidth_snd]
    rfl
  have hstep : ∀ {ok u}, opened.allocateBuffer = (ok, u) → step (s.commanded w) = .next
      (if s.isRunning = false ∧ w.extractLsb' 24 3 = 0 ∧ w.extractLsb' 0 16 = 0 then
        (if ok then u.withCtl .ready else u.fatal .alloc)
       else { s with ill := true }) := fun halloc =>
    step_commanded_of_row hv (decode_openStream (opField_of_op hop (by decide))) (by simp [Accepts, immField])
      fun h => exec_openStream h.1 (hconfigured ▸ halloc)
  refine ⟨fun hrefused => ?_, fun hrun h24 h0 => ?_⟩
  · have hnot : ¬ (s.isRunning = false ∧ w.extractLsb' 24 3 = 0 ∧ w.extractLsb' 0 16 = 0) := by
      rintro ⟨hrun, h24, h0⟩
      simp [hrun, h24, h0] at hrefused
    rw [hstep rfl, if_neg hnot]
  · have hexecuted : s.isRunning = false ∧ w.extractLsb' 24 3 = 0 ∧ w.extractLsb' 0 16 = 0 := ⟨hrun, h24, h0⟩
    simp only [if_pos hexecuted] at hstep
    refine ⟨fun hcannot => hstep (allocateBuffer_of_cannot_fail hcannot), fun hmay =>
      ⟨fun hreport => hstep (allocateBuffer_of_report hmay hreport),
        fun hreport => hstep (allocateBuffer_of_report hmay hreport), fun hreport => ?_⟩⟩
    have hdrawn := hstep (allocateBuffer_of_no_report hmay hreport)
    cases hok : Config.allocOk opened.params.base opened.draws with
    | true => exact .inl (by rw [hdrawn, hok]; rfl)
    | false => exact .inr (by rw [hdrawn, hok]; rfl)

/-- Settles O13: RUN's row, which needs READY. -/
theorem runWord : Obligations.RunWord := by
  intro s w hv hop
  have hstep : step (s.commanded w) = .next
      (if s.ctl = .ready ∧ w.extractLsb' 0 28 = 0 then { s with ctl := .running .readWait } else { s with ill := true }) := by
    refine step_commanded_of_row hv (decode_run (opField_of_op hop (by decide))) ?_ fun h => runCompletes s h.1
    constructor
    · rintro ⟨hready, hzero⟩
      exact ⟨by simp [State.isRunning, hready], hzero, hready⟩
    · rintro ⟨-, hzero, hready⟩
      exact ⟨hready, hzero⟩
  refine ⟨fun hready hzero => ⟨?_, rfl⟩, fun hrefused => ?_⟩
  · rw [hstep, if_pos ⟨hready, hzero⟩]
  · rw [hstep, if_neg (by tauto)]

end Sys2Proof.Proofs
end

section
/-! SUPPORT. The controller: every change of CTL and PHASE is a row of R89's table, the block's own move (R93), and a block that waits
for ever on a host that never answers (R98). -/

namespace Sys2Proof.Proofs

open Sys2Proof.Machine Sys2Proof.Claims

/-! ## The rows of R89, by what the step takes -/

/-- An executed command changes CTL and PHASE by a row of OPEN or of RUN, or not at all. -/
theorem tableRow_of_leaves {w : Word} {i : Instr} {s t : State} (hd : decode w = .ok i) (hrun : s.isRunning = false)
    (h : Leaves i s t) : t.ctl = s.ctl ∨ TableRow s t (some (.regWrite 32 s.params.base w)) := by
  obtain ⟨hrow, hi⟩ := decode_ok_cases hd
  rcases hi with ⟨hop, rfl⟩ | ⟨-, rfl⟩ | ⟨-, rfl⟩ | ⟨-, rfl⟩ | ⟨-, rfl⟩ | ⟨-, rfl⟩ | ⟨hop, rfl⟩
  · obtain ⟨_, _, rfl | ⟨hmay, rfl⟩⟩ := leaves_openStream h
    · exact .inr (.openSucceeds w hop hrow hrun rfl rfl)
    · exact .inr (.openFails w hop hrow hmay hrun rfl rfl)
  · obtain rfl := h; exact .inl rfl
  · obtain ⟨x, -, rfl⟩ := h; exact .inl rfl
  · obtain rfl := h; exact .inl rfl
  · obtain ⟨x, -, rfl⟩ := h; exact .inl rfl
  · obtain ⟨x, -, rfl⟩ := h; exact .inl rfl
  · obtain ⟨hready, rfl⟩ := h
    exact .inr (.run w hop hrow hready rfl)

/-- The block's own move changes CTL and PHASE by one of the two ends of a conversion, or not at all. -/
theorem tableRow_of_blockMove (s : State) {e : Option Event} (he : e = none ∨ e = some .blockTurn) :
    s.blockMove.ctl = s.ctl ∨ TableRow s s.blockMove e := by
  rcases blockMove_cases s with ⟨-, h⟩ | ⟨hprocess, hempty, h⟩ | ⟨hprocess, hout, h⟩
  · exact .inl (congrArg State.ctl h)
  · exact .inr (.convertedEmpty e he hprocess hempty (congrArg State.ctl h))
  · exact .inr (.converted e he hprocess hout (congrArg State.ctl h))

theorem tableRow_of_readAnswered {a : ReadAnswer} {s t : State} (h : readAnswered a s = .next t) :
    TableRow s t (some (.readAnswer a)) := by
  obtain ⟨hwait, h⟩ := readAnswered_cases h
  rcases h with ⟨rfl, rfl⟩ | ⟨rfl, rfl⟩ | ⟨b, rfl, hne, -, hstrict, hshort, rfl⟩ | ⟨b, rfl, hne, hle, hfull, rfl⟩
  · exact .readFails hwait rfl rfl
  · exact .endOfInput hwait rfl
  · exact .shortReadFails b hne hshort hstrict hwait rfl rfl
  · exact .blockRead b hne hle (fun hstrict => hle.antisymm (Nat.not_lt.1 (hfull hstrict))) hwait rfl

theorem tableRow_of_writeAnswered {a : WriteAnswer} {s t : State} (h : writeAnswered a s = .next t) :
    TableRow s t (some (.writeAnswer a)) := by
  obtain ⟨hwait, ⟨rfl, rfl⟩ | ⟨rfl, rfl⟩⟩ := writeAnswered_cases h
  · exact .blockWritten hwait rfl
  · exact .writeFails hwait rfl rfl

/-- What one event does to CTL and PHASE is a row of R89, or nothing. -/
theorem tableRow_of_moves {e : Event} {s t : State} (h : Moves e s t) : t.ctl = s.ctl ∨ TableRow s t (some e) := by
  cases e with
  | regRead width addr =>
    obtain ⟨v, u, hread, rfl⟩ := h
    rw [readRegister_state hread]
    exact .inl rfl
  | regWrite width addr w =>
    obtain ⟨⟨rfl, rfl⟩, ⟨-, rfl⟩ | ⟨i, hd, hrun, hleaves⟩⟩ := moves_regWrite h
    · exact .inl rfl
    · exact tableRow_of_leaves hd hrun hleaves
  | allocReport ok => obtain rfl := h; exact .inl rfl
  | readAnswer a => exact .inr (tableRow_of_readAnswered h)
  | writeAnswer a => exact .inr (tableRow_of_writeAnswered h)
  | blockTurn => obtain rfl := h; exact tableRow_of_blockMove s (.inr rfl)
  | reset => obtain rfl := h; exact .inr (.reset rfl)

/-- A row of R89 does not look at the queue of events. -/
theorem tableRow_of_inputs {s t : State} {e : Option Event} {queue : List Event}
    (h : TableRow { s with inputs := queue } t e) : TableRow s t e := by
  cases h with
  | openSucceeds w hop m n r err => exact .openSucceeds w hop m n r err
  | openFails w hop m a n r err => exact .openFails w hop m a n r err
  | run w hop m n r => exact .run w hop m n r
  | endOfInput n r => exact .endOfInput n r
  | blockRead b hne l p n r => exact .blockRead b hne l p n r
  | readFails n r err => exact .readFails n r err
  | shortReadFails b hne l p n r err => exact .shortReadFails b hne l p n r err
  | converted e he n o r => exact .converted e he n o r
  | convertedEmpty e he n o r => exact .convertedEmpty e he n o r
  | blockWritten n r => exact .blockWritten n r
  | writeFails n r err => exact .writeFails n r err
  | reset r => exact .reset r

/-- Settles O42, by what the step takes: the block's own move, or the first event. -/
theorem controllerFollowsTable : Obligations.ControllerFollowsTable := by
  intro s t h
  obtain ⟨-, ⟨hi, rfl⟩ | ⟨e, rest, hi, hmoves⟩⟩ := step_next_cases h
  · rw [hi]
    exact tableRow_of_blockMove s (.inl rfl)
  · rw [hi]
    exact (tableRow_of_moves hmoves).imp id tableRow_of_inputs

/-! ## The block's own move -/

/-- Outside PROCESS the block waits for the host (R40). -/
theorem blockMove_of_not_process {s : State} (h : s.ctl ≠ .running .process) : s.blockMove = s := by
  obtain ⟨-, hwait⟩ | ⟨hprocess, -⟩ | ⟨hprocess, -⟩ := blockMove_cases s
  · exact hwait
  · exact absurd hprocess h
  · exact absurd hprocess h

theorem step_blockTurn {s : State} {rest : List Event} (hv : s.params.valid = true) (hi : s.inputs = .blockTurn :: rest) :
    step s = .next ({ s with inputs := rest } : State).blockMove := by
  rw [step_of_cons hv hi]
  rfl

section
variable {s : State} {out : List Byte} {c : CodecState} (hprocess : s.ctl = .running .process)
  (hconvert : convertBlock s.params s.cfgDir s.cfgWidth s.codec s.buf = (out, c))
include hprocess hconvert

/-- A block that yields no output leaves BUF, and the next read is issued (R93). -/
theorem blockMove_of_empty (hempty : out = []) : s.blockMove = (s.withCodec c).withCtl (.running .readWait) := by
  rcases blockMove_cases s with ⟨hctl, -⟩ | ⟨-, -, hmove⟩ | ⟨-, hne, -⟩
  · exact absurd hprocess hctl
  · rw [hmove, hconvert]
  · exact absurd (congrArg Prod.fst hconvert |>.trans hempty) hne

/-- The output of a block goes to BUF, and its write is issued (R93). -/
theorem blockMove_of_ne_nil (hne : out ≠ []) :
    s.blockMove = { s.withCodec c with buf := out, ctl := .running .writeWait } := by
  rcases blockMove_cases s with ⟨hctl, -⟩ | ⟨-, hempty, -⟩ | ⟨-, -, hmove⟩
  · exact absurd hprocess hctl
  · exact absurd ((congrArg Prod.fst hconvert).symm.trans hempty) hne
  · rw [hmove, hconvert]

end

/-- A step with no event left, or with the block's turn next, is the block's own move (log 1). -/
theorem step_ownMove {s u : State} (hv : s.params.valid = true)
    (hu : s.inputs = [] ∧ u = s ∨ ∃ rest, s.inputs = .blockTurn :: rest ∧ u = { s with inputs := rest }) :
    ∃ queue, u = { s with inputs := queue } ∧ step s = .next u.blockMove := by
  rcases hu with ⟨hi, rfl⟩ | ⟨rest, hi, rfl⟩
  · exact ⟨u.inputs, rfl, step_of_nil hv hi⟩
  · exact ⟨rest, rfl, step_blockTurn hv hi⟩

/-! ## A host that never answers -/

/-- A run whose first step goes on is the run from the next state. -/
theorem run_succ_of_step {s t : State} (h : step s = .next t) (n : Nat) : core.run (n + 1) s = core.run n t := by
  have hstep : core.step s = .next t := h
  simp only [Host.Core.run, hstep]

/-- Settles O58, by induction on the number of steps: each is the block's own move, which waits. -/
theorem unansweredRequestHangs : Obligations.UnansweredRequestHangs := by
  intro n s hv hi hctl
  induction n with
  | zero => rfl
  | succ n ih => rw [run_succ_of_step ((step_of_nil hv hi).trans (congrArg _ (blockMove_of_not_process hctl))), ih]

end Sys2Proof.Proofs
end

section
/-! SUPPORT. The block conversions, byte by byte and over split streams (R95, R96, R99). -/

namespace Sys2Proof.Proofs

open Sys2Proof.Machine Sys2Proof.Claims

/-! ## The working values of a block -/

/-- The working values that Encode is called on for a block, the padding included (R86, R95). -/
def workingSamples (P : Params) (w : Width) (bytes : List Byte) : List Int :=
  padded P w ((externalSamples P w bytes).map (toInternal P w))

theorem encodeBlock_eq (P : Params) (w : Width) (c : CodecState) (bytes : List Byte) : encodeBlock P w c bytes =
    (packAll (encodeAll P c (workingSamples P w bytes)).1, (encodeAll P c (workingSamples P w bytes)).2) := rfl

theorem samples16_append (order : ByteOrder) {xs : List Byte} (heven : xs.length % 2 = 0) (ys : List Byte) :
    samples16 order (xs ++ ys) = samples16 order xs ++ samples16 order ys := by
  match xs, heven with
  | [], _ => rfl
  | [_], h => cases h
  | b0 :: b1 :: rest, h =>
    have hrest : rest.length % 2 = 0 := by simp only [List.length_cons] at h; omega
    exact congrArg (_ :: ·) (samples16_append order hrest ys)

/-- At width 16 the byte after whole samples is dropped (R95). -/
theorem samples16_concat (order : ByteOrder) {xs : List Byte} (heven : xs.length % 2 = 0) (b : Byte) :
    samples16 order (xs ++ [b]) = samples16 order xs := by
  rw [samples16_append order heven]
  exact List.append_nil _

/-- Samples are whole in a block of whole samples, whatever follows it. -/
theorem externalSamples_append (P : Params) (w : Width) {xs : List Byte} (hwhole : xs.length % widthBytes w = 0)
    (ys : List Byte) : externalSamples P w (xs ++ ys) = externalSamples P w xs ++ externalSamples P w ys := by
  cases w with
  | w8 => exact List.map_append
  | w16 => exact samples16_append _ hwhole ys

theorem padded_append (P : Params) (w : Width) {xs : List Int} (heven : xs.length % 2 = 0) (ys : List Int) :
    padded P w (xs ++ ys) = xs ++ padded P w ys := by
  rcases Nat.mod_two_eq_zero_or_one ys.length with hys | hys
  · rw [padded_of_even hys, padded_of_even (by rw [List.length_append]; omega)]
  · rw [padded_of_odd hys, padded_of_odd (by rw [List.length_append]; omega), List.append_assoc]

/-- A block of a whole, even number of samples is not padded, so what follows it is encoded on its own (R95). -/
theorem workingSamples_append (P : Params) (w : Width) {xs : List Byte} (hxs : xs.length % (2 * widthBytes w) = 0)
    (ys : List Byte) : workingSamples P w (xs ++ ys) = workingSamples P w xs ++ workingSamples P w ys := by
  have hwhole : xs.length % widthBytes w = 0 := by cases w <;> simp only [widthBytes] at hxs ⊢ <;> omega
  have heven : ((externalSamples P w xs).map (toInternal P w)).length % 2 = 0 := by
    rw [List.length_map, length_externalSamples]
    cases w <;> simp only [widthBytes] at hxs ⊢ <;> omega
  simp only [workingSamples, externalSamples_append P w hwhole, List.map_append, padded_append P w heven, padded_of_even heven]

/-! ## Two samples at a time -/

/-- A block whose working values are two and then those of `rest` encodes to one byte and then what `rest` encodes to. -/
theorem encodesPair_of_workingSamples {P : Params} {w : Width} {bytes rest : List Byte} {x y : Int}
    (h : workingSamples P w bytes = x :: y :: workingSamples P w rest) (c : CodecState) :
    EncodesPair P w c bytes rest x y := by
  rw [EncodesPair, encodeBlock_eq, encodeBlock_eq, h]
  rfl

theorem toNat_append_byte (b1 b0 : Byte) : (b1 ++ b0 : BitVec 16).toNat = 256 * b1.toNat + b0.toNat :=
  calc (b1 ++ b0 : BitVec 16).toNat = b1.toNat <<< 8 ||| b0.toNat := BitVec.toNat_append b1 b0
    _ = b1.toNat <<< 8 + b0.toNat := (Nat.shiftLeft_add_eq_or_of_lt b0.isLt _).symm
    _ = 256 * b1.toNat + b0.toNat := by rw [Nat.shiftLeft_eq, Nat.mul_comm]

/-- A 16-bit sample is the two's complement value of its joined bytes (R37, R56). -/
theorem toInternal_join16 (P : Params) (b0 b1 : Byte) :
    toInternal P .w16 (join16 P.sample16Order b0 b1).toInt = sample16 P b0 b1 := by
  cases horder : P.sample16Order with
  | little =>
    simp only [toInternal, join16, sample16, horder, BitVec.toInt_eq_toNat_bmod, toNat_append_byte]
    push_cast
    rw [add_comm]
  | big =>
    simp only [toInternal, join16, sample16, horder, BitVec.toInt_eq_toNat_bmod, toNat_append_byte]
    push_cast
    rfl

theorem workingSamples_w8_cons_cons (P : Params) (b0 b1 : Byte) (rest : List Byte) :
    workingSamples P .w8 (b0 :: b1 :: rest) = sample8 P b0 :: sample8 P b1 :: workingSamples P .w8 rest :=
  padded_append P .w8 (xs := [sample8 P b0, sample8 P b1]) (Nat.mod_self 2) _

theorem workingSamples_w16_cons_cons (P : Params) (b0 b1 b2 b3 : Byte) (rest : List Byte) :
    workingSamples P .w16 (b0 :: b1 :: b2 :: b3 :: rest) =
      sample16 P b0 b1 :: sample16 P b2 b3 :: workingSamples P .w16 rest := by
  rw [← toInternal_join16, ← toInternal_join16]
  exact padded_append P .w16 (xs := [_, _]) (Nat.mod_self 2) _

theorem workingSamples_w8_singleton (P : Params) (b0 : Byte) :
    workingSamples P .w8 [b0] = [sample8 P b0, padding P .w8] :=
  padded_of_odd rfl P .w8

theorem workingSamples_w16_pair (P : Params) (b0 b1 : Byte) :
    workingSamples P .w16 [b0, b1] = [sample16 P b0 b1, padding P .w16] := by
  rw [← toInternal_join16]
  exact padded_of_odd rfl P .w16

/-! ## Blocks one after the other -/

theorem encodeAll_append (P : Params) (xs ys : List Int) (c : CodecState) : encodeAll P c (xs ++ ys) =
    ((encodeAll P c xs).1 ++ (encodeAll P (encodeAll P c xs).2 ys).1, (encodeAll P (encodeAll P c xs).2 ys).2) := by
  induction xs generalizing c with
  | nil => rfl
  | cons x rest ih => simp only [List.cons_append, encodeAll, ih]

theorem decodeAll_append (P : Params) (xs ys : List Code) (c : CodecState) : decodeAll P c (xs ++ ys) =
    ((decodeAll P c xs).1 ++ (decodeAll P (decodeAll P c xs).2 ys).1, (decodeAll P (decodeAll P c xs).2 ys).2) := by
  induction xs generalizing c with
  | nil => rfl
  | cons x rest ih => simp only [List.cons_append, decodeAll, ih]

theorem unpackAll_append (xs ys : List Byte) : unpackAll (xs ++ ys) = unpackAll xs ++ unpackAll ys := by
  induction xs with
  | nil => rfl
  | cons x rest ih => simp only [List.cons_append, unpackAll, ih]

/-- Decoding goes on where it stopped: no byte shares a code with the next (R96). -/
theorem decodeBlock_append (P : Params) (w : Width) (c : CodecState) (xs ys : List Byte) : decodeBlock P w c (xs ++ ys) =
    ((decodeBlock P w c xs).1 ++ (decodeBlock P w (decodeBlock P w c xs).2 ys).1,
      (decodeBlock P w (decodeBlock P w c xs).2 ys).2) := by
  simp only [decodeBlock, unpackAll_append, decodeAll_append, List.map_append, List.flatten_append]

/-- Encoding goes on where it stopped after a block of a whole, even number of samples: nothing is padded in between (R95). -/
theorem encodeBlock_append (P : Params) (w : Width) (c : CodecState) {xs : List Byte}
    (hxs : xs.length % (2 * widthBytes w) = 0) (ys : List Byte) : encodeBlock P w c (xs ++ ys) =
    ((encodeBlock P w c xs).1 ++ (encodeBlock P w (encodeBlock P w c xs).2 ys).1,
      (encodeBlock P w (encodeBlock P w c xs).2 ys).2) := by
  have heven : (encodeAll P c (workingSamples P w xs)).1.length % 2 = 0 := by
    rw [length_encodeAll, workingSamples, length_padded]
    omega
  simp only [encodeBlock_eq, workingSamples_append P w hxs, encodeAll_append, packAll_append _ heven]

/-- Settles O43, by induction over the blocks; each is converted from where the one before left the codec. -/
theorem blockBoundaryFacts : Obligations.BlockBoundaryFacts := by
  refine ⟨fun P w c blocks => ?_, fun P w c blocks last hblocks => ?_, fun P c bytes b heven => ?_⟩
  · induction blocks generalizing c with
    | nil => rfl
    | cons block rest ih => rw [List.flatten_cons, decodeBlock_append, ← ih]; rfl
  · induction blocks generalizing c with
    | nil => simp only [List.nil_append, convertBlocks, convertBlock, List.append_nil, List.flatten_nil]
    | cons block rest ih =>
      obtain ⟨hblock, hrest⟩ := List.forall_mem_cons.1 hblocks
      rw [List.flatten_cons, List.append_assoc, encodeBlock_append P w c hblock, ← ih _ hrest]
      rfl
  · simp only [encodeBlock, externalSamples, samples16_concat _ heven]

/-! ## The block's own move, with its bytes in and out -/

theorem outBytes_eq_bytesOut (P : Params) (w : Width) (v : Int) : outBytes P w v = bytesOut P w v := by
  cases w with
  | w8 => rfl
  | w16 => cases horder : P.sample16Order <;> simp only [outBytes, bytesOut, split16, horder]

/-- Settles O60: the move's two ends; then the conversions by their working values and codes. -/
theorem ownMovesAndReports : Obligations.OwnMovesAndReports := by
  refine ⟨?_, fun s ok rest hv hi => ?_, fun P c b0 b1 b2 b3 rest => ?_, fun P w c x rest => ?_⟩
  · intro s u hv hu c r
    have hconvert : convertBlock s.params s.cfgDir s.cfgWidth s.codec s.buf = r := by
      simp only [r]
      cases s.cfgDir <;> rfl
    obtain ⟨queue, rfl, hstep⟩ := step_ownMove hv hu
    rw [hstep]
    refine ⟨fun hprocess hempty => ?_, fun hprocess hne => ?_, fun hctl => ?_⟩
    · exact congrArg _ (blockMove_of_empty (s := { s with inputs := queue }) hprocess hconvert hempty)
    · exact congrArg _ (blockMove_of_ne_nil (s := { s with inputs := queue }) hprocess hconvert hne)
    · exact congrArg _ (blockMove_of_not_process (s := { s with inputs := queue }) hctl)
  · rw [step_of_cons hv hi]
    rfl
  · exact ⟨encodesPair_of_workingSamples (workingSamples_w8_cons_cons P b0 b1 rest) c,
      encodesPair_of_workingSamples (workingSamples_w8_singleton P b0) c,
      encodesPair_of_workingSamples (workingSamples_w16_cons_cons P b0 b1 b2 b3 rest) c,
      encodesPair_of_workingSamples (workingSamples_w16_pair P b0 b1) c,
      encodesPair_of_workingSamples (workingSamples_w16_pair P b0 b1) c, rfl⟩
  · have hnil : encodeBlock P w c [] = ([], c) := by cases w <;> rfl
    refine ⟨hnil, rfl, ?_⟩
    simp only [← outBytes_eq_bytesOut, List.append_assoc]
    rfl

end Sys2Proof.Proofs
end

section
/-! SUPPORT. A stream that the host serves to its end (R93, R98): one block at a time, then the whole stream. -/

namespace Sys2Proof.Proofs

open Sys2Proof.Machine Sys2Proof.Claims

/-! ## Runs -/

/-- A run of two parts: the second starts where the first ended. -/
theorem run_add_of_run {m : Nat} {s t : State} (h : core.run m s = .next t) (n : Nat) :
    core.run (m + n) s = core.run n t := by
  induction m generalizing s with
  | zero =>
    obtain rfl : s = t := Host.Outcome.next.inj h
    rw [Nat.zero_add]
  | succ m ih =>
    rw [Nat.add_right_comm]
    simp only [Host.Core.run] at h ⊢
    cases hstep : core.step s with
    | next u => simp only [hstep] at h ⊢; exact ih h
    | fault r => simp [hstep] at h
    | refused r => simp [hstep] at h

/-! ## Blocks served -/

/-- In READ_WAIT after blocks were served, with other events left and other bytes in BUF. -/
def served (s : State) (blocks : List (List Byte)) (rest : List Event) (held : List Byte) : State :=
  { s with
    inputs := rest
    consumed := s.consumed ++ blocks.flatten
    output := s.output ++ (convertBlocks s.params s.cfgDir s.cfgWidth s.codec blocks).1
    pred := (convertBlocks s.params s.cfgDir s.cfgWidth s.codec blocks).2.pred
    idx := (convertBlocks s.params s.cfgDir s.cfgWidth s.codec blocks).2.idx
    buf := held }

theorem served_nil (s : State) (rest : List Event) : served s [] rest s.buf = { s with inputs := rest } := by
  simp only [served, convertBlocks, List.flatten_nil, List.append_nil, State.codec]

/-- Serving a block and then others is serving them all. -/
theorem served_served (s : State) (block : List Byte) (blocks : List (List Byte)) (rest rest' : List Event)
    (held held' : List Byte) :
    served (served s [block] rest held) blocks rest' held' = served s (block :: blocks) rest' held' := by
  simp only [served, convertBlocks, State.codec, List.flatten_cons, List.flatten_nil, List.append_nil, List.append_assoc]

/-- A block issues no write exactly when it converts to no output (R93). -/
theorem silent_iff (P : Params) (dir : Dir) (w : Width) (c : CodecState) (block : List Byte) :
    silent dir w block = true ↔ (convertBlock P dir w c block).1 = [] := by
  rw [← List.length_eq_zero_iff]
  cases dir with
  | encode =>
    rw [convertBlock, length_encodeBlock]
    cases w <;> simp only [silent, widthBytes, decide_eq_true_eq] <;> omega
  | decode =>
    rw [convertBlock, length_decodeBlock]
    cases w <;> simp only [silent, widthBytes, decide_eq_true_eq] <;> omega

/-! ## The steps of a stream that is served -/

section
variable {s : State} {rest : List Event} (hv : s.params.valid = true)
include hv

theorem step_readAnswer_block {block : List Byte} (hi : s.inputs = .readAnswer (.ok block) :: rest)
    (hwait : s.ctl = .running .readWait) (hshort : s.params.shortReadIsError = false) (hne : block ≠ [])
    (hle : block.length ≤ reqBytes s) : step s = .next { s with
      inputs := rest, consumed := s.consumed ++ block, buf := block, ctl := .running .process } := by
  obtain ⟨-, hanswer⟩ := readAnswerEffects s rest (.ok block) hv hi
  obtain ⟨-, -, hblock⟩ := hanswer hwait
  obtain ⟨-, hread, -⟩ := hblock block rfl hne
  exact hread (hle.eq_or_lt.imp id fun hlt => ⟨hlt, hshort⟩)

theorem step_readAnswer_nil (hi : s.inputs = .readAnswer (.ok []) :: rest) (hwait : s.ctl = .running .readWait) :
    step s = .next { s with inputs := rest, ctl := .done } := by
  obtain ⟨-, hanswer⟩ := readAnswerEffects s rest (.ok []) hv hi
  obtain ⟨-, hend, -⟩ := hanswer hwait
  exact hend rfl

theorem step_writeAnswer_ok (hi : s.inputs = .writeAnswer .ok :: rest) (hwait : s.ctl = .running .writeWait) :
    step s = .next { s with inputs := rest, output := s.output ++ s.buf, ctl := .running .readWait } := by
  obtain ⟨-, hanswer⟩ := writeAnswerEffects s rest .ok hv hi
  exact (hanswer hwait).1 rfl

/-- The read of a block that is served, and its conversion (R93). -/
theorem run_read_convert {block : List Byte} (hi : s.inputs = .readAnswer (.ok block) :: .blockTurn :: rest)
    (hwait : s.ctl = .running .readWait) (hshort : s.params.shortReadIsError = false) (hne : block ≠ [])
    (hle : block.length ≤ reqBytes s) : core.run 2 s = .next ({ s with
      inputs := rest, consumed := s.consumed ++ block, buf := block, ctl := .running .process } : State).blockMove := by
  refine (run_succ_of_step (step_readAnswer_block hv hi hwait hshort hne hle) 1).trans (run_succ_of_step ?_ 0)
  exact step_blockTurn hv rfl

/-- A block that is served leads back to READ_WAIT: read, converted and, where it has output, written (R93). -/
theorem run_blockEvents {block : List Byte} (hi : s.inputs = blockEvents s.cfgDir s.cfgWidth block ++ rest)
    (hwait : s.ctl = .running .readWait) (hshort : s.params.shortReadIsError = false) (hne : block ≠ [])
    (hle : block.length ≤ reqBytes s) :
    ∃ held, core.run (blockEvents s.cfgDir s.cfgWidth block).length s = .next (served s [block] rest held) := by
  have hsilent := silent_iff s.params s.cfgDir s.cfgWidth s.codec block
  obtain ⟨out, c, hconvert⟩ : ∃ out c, convertBlock s.params s.cfgDir s.cfgWidth s.codec block = (out, c) := ⟨_, _, rfl⟩
  rw [hconvert] at hsilent
  by_cases hempty : out = []
  · simp only [blockEvents, if_pos (hsilent.2 hempty), List.append_nil, List.cons_append, List.nil_append] at hi ⊢
    refine ⟨block, (run_read_convert hv hi hwait hshort hne hle).trans ?_⟩
    rw [blockMove_of_empty rfl hconvert hempty]
    simp only [served, convertBlocks, hconvert, hempty, List.append_nil, List.flatten_cons, List.flatten_nil, ← hwait]
    rfl
  · simp only [blockEvents, if_neg (mt hsilent.1 hempty), List.cons_append, List.nil_append] at hi ⊢
    have hconverted := run_read_convert hv hi hwait hshort hne hle
    rw [blockMove_of_ne_nil rfl hconvert hempty] at hconverted
    refine ⟨out, (run_add_of_run hconverted 1).trans (run_succ_of_step ?_ 0)⟩
    refine Eq.trans (step_writeAnswer_ok hv rfl rfl) ?_
    simp only [served, convertBlocks, hconvert, List.append_nil, List.flatten_cons, List.flatten_nil, ← hwait]
    rfl

end

/-! ## The whole stream -/

/-- The host serves a stream from READ_WAIT to its end, by induction over the blocks (R93, R98). -/
theorem run_streamEvents {s : State} {blocks : List (List Byte)} {rest : List Event} (hv : s.params.valid = true)
    (hshort : s.params.shortReadIsError = false) (hwait : s.ctl = .running .readWait)
    (hblocks : ∀ b ∈ blocks, b ≠ [] ∧ b.length ≤ reqBytes s)
    (hi : s.inputs = streamEvents s.cfgDir s.cfgWidth blocks ++ rest) :
    ∃ held, core.run (streamEvents s.cfgDir s.cfgWidth blocks).length s =
      .next ((served s blocks rest held).withCtl .done) := by
  induction blocks generalizing s with
  | nil =>
    refine ⟨s.buf, (run_succ_of_step (step_readAnswer_nil hv hi hwait) 0).trans ?_⟩
    rw [served_nil]
    rfl
  | cons block blocks ih =>
    obtain ⟨⟨hne, hle⟩, hrest⟩ := List.forall_mem_cons.1 hblocks
    have hevents : streamEvents s.cfgDir s.cfgWidth (block :: blocks) =
        blockEvents s.cfgDir s.cfgWidth block ++ streamEvents s.cfgDir s.cfgWidth blocks := List.append_assoc ..
    rw [hevents, List.append_assoc] at hi
    rw [hevents, List.length_append]
    obtain ⟨held, hblock⟩ := run_blockEvents hv hi hwait hshort hne hle
    obtain ⟨held', hstream⟩ := ih
      (s := served s [block] (streamEvents s.cfgDir s.cfgWidth blocks ++ rest) held) hv hshort hwait hrest rfl
    refine ⟨held', (run_add_of_run hblock _).trans (hstream.trans ?_)⟩
    rw [served_served]

/-- Settles O44: RUN starts the stream, and the host serves it to its end. -/
theorem streamRunsToDone : Obligations.StreamRunsToDone := by
  intro s blocks rest hv hshort hready hblocks hi
  have hrun := (step_cmd_of_ok hv hi (i := .run) (by decide)).trans (runCompletes { s with inputs := _ } hready)
  obtain ⟨held, hstream⟩ := run_streamEvents (s := { s with
    inputs := streamEvents s.cfgDir s.cfgWidth blocks ++ rest, ctl := .running .readWait }) hv hshort rfl hblocks rfl
  refine ⟨held, ?_⟩
  rw [Nat.add_comm, run_succ_of_step hrun]
  exact hstream

end Sys2Proof.Proofs
end

section
/-! SUPPORT. The reason for which a word is refused (R100, R105): the decoder's errors by OP, and the commands' errors outside RUNNING. -/

namespace Sys2Proof.Proofs

open Sys2Proof.Machine Sys2Proof.Claims

/-! ## The decoder's errors -/

theorem selectRow_error {w mask pattern : Word} {i : Instr} {r : RefuseReason} (h : selectRow w mask pattern i = .error r) :
    r = .reservedBits := by
  unfold selectRow at h
  split at h
  · cases h
  · exact (Except.error.inj h).symm

/-- A word that the decoder rejects matches no row (R48). -/
theorem rowMatches_of_decode_error {w : Word} {r : RefuseReason} (h : decode w = .error r) : rowMatches w = false := by
  by_contra hmatches
  obtain ⟨i, hi⟩ := exists_decode_of_rowMatches (Bool.eq_true_of_not_eq_false hmatches)
  cases h.symm.trans hi

/-- The decoder's reason says whether OP is reserved (R47). -/
theorem decode_error {w : Word} {r : RefuseReason} (h : decode w = .error r) :
    r = if reservedOp w = true then .badOp else .reservedBits := by
  unfold decode at h
  rw [show (opField w).toNat = op w from rfl] at h
  split at h
  case h_8 =>
    have hreserved : reservedOp w = true := by
      simp only [reservedOp, Bool.or_eq_true, decide_eq_true_eq]
      grind
    rw [if_pos hreserved]
    exact (Except.error.inj h).symm
  all_goals
    rename_i hop
    simp [reservedOp, hop, selectRow_error h]

/-! ## The commands' errors -/

/-- Outside RUNNING a command is refused for its operand (R49), and RUN because CTL is not READY (R50). -/
theorem effectOf_error {i : Instr} {s : State} {r : RefuseReason} (hrun : s.isRunning = false)
    (h : effectOf i s = .error r) : r = if i = .run then .runNotReady else .operandRange := by
  cases i with
  | openStream dir wid => simp [effectOf, openEffect, gate_some hrun] at h
  | init => simp [effectOf, initEffect, gate_some hrun] at h
  | enc imm =>
    cases ho : sampleOperand imm with
    | none => simpa [effectOf, encEffect, ho, gate_none hrun, eq_comm] using h
    | some x => simp [effectOf, encEffect, ho, gate_some hrun] at h
  | dec code => simp [effectOf, decEffect, gate_some hrun] at h
  | nin imm =>
    cases ho : externalOperand s.cfgWidth imm with
    | none => simpa [effectOf, ninEffect, ho, gate_none hrun, eq_comm] using h
    | some x => simp [effectOf, ninEffect, ho, gate_some hrun] at h
  | nout imm =>
    cases ho : sampleOperand imm with
    | none => simpa [effectOf, noutEffect, ho, gate_none hrun, eq_comm] using h
    | some x => simp [effectOf, noutEffect, ho, gate_some hrun] at h
  | run =>
    simp only [effectOf, runEffect, gate_some hrun] at h
    split at h
    · cases h
    · exact (Except.error.inj h).symm

/-- A decoded word is RUN's exactly where its OP is 7 (R47). -/
theorem eq_run_iff_of_decode {w : Word} {i : Instr} (h : decode w = .ok i) : i = .run ↔ op w = 7 := by
  obtain ⟨-, hi⟩ := decode_ok_cases h
  rcases hi with ⟨hop, rfl⟩ | ⟨hop, rfl⟩ | ⟨hop, rfl⟩ | ⟨hop, rfl⟩ | ⟨hop, rfl⟩ | ⟨hop, rfl⟩ | ⟨hop, rfl⟩ <;> simp [hop]

/-- The reason of a decoded command that is refused outside RUNNING, by its word: only RUN's can be RUN_NOT_READY, and RUN has no operand
to be out of range. -/
theorem effectOf_error_of_decode {w : Word} {i : Instr} {s : State} {r : RefuseReason} (hrun : s.isRunning = false)
    (hd : decode w = .ok i) (h : effectOf i s = .error r) :
    (rangeBroken s w = true ∧ r = .operandRange) ∨ (rangeBroken s w = false ∧ runNotReady s w = true ∧ r = .runNotReady) := by
  have hbroken : ¬ (rangeBroken s w = false ∧ runNotReady s w = false) := fun hkept => by
    obtain ⟨t, ht⟩ := exists_effectOf_ok_iff.2 ⟨hrun, (accepts_iff_of_decode hd s).2 hkept⟩
    cases h.symm.trans ht
  have hreason := effectOf_error hrun h
  by_cases hop : op w = 7
  · have hrange : rangeBroken s w = false := by simp [rangeBroken, hop]
    rw [if_pos ((eq_run_iff_of_decode hd).2 hop)] at hreason
    exact .inr ⟨hrange, Bool.eq_true_of_not_eq_false fun hready => hbroken ⟨hrange, hready⟩, hreason⟩
  · have hready : runNotReady s w = false := by simp [runNotReady, hop]
    rw [if_neg fun hi => hop ((eq_run_iff_of_decode hd).1 hi)] at hreason
    exact .inl ⟨Bool.eq_true_of_not_eq_false fun hrange => hbroken ⟨hrange, hready⟩, hreason⟩

/-! ## The reason of a word -/

/-- Settles O4: BUSY comes first; then the decoder's reason, where the word matches no row; then the command's. -/
theorem firstRefusalReason : Obligations.FirstRefusalReason := by
  refine ⟨fun s w => ?_, rfl⟩
  unfold refuseReason
  cases hrun : s.isRunning with
  | true => rfl
  | false =>
    cases hd : decode w with
    | error r =>
      obtain rfl := decode_error hd
      simp [rowMatches_of_decode_error hd, apply_ite]
    | ok i =>
      have hrow := (decode_ok_cases hd).1
      have hop := reservedOp_of_rowMatches hrow
      cases heffect : effectOf i s with
      | ok t =>
        obtain ⟨hrange, hready⟩ := (accepts_iff_of_decode hd s).1 (exists_effectOf_ok_iff.1 ⟨t, heffect⟩).2
        simp [heffect, hrow, hop, hrange, hready]
      | error r =>
        obtain ⟨hrange, rfl⟩ | ⟨hrange, hready, rfl⟩ := effectOf_error_of_decode hrun hd heffect
        · simp [heffect, hrow, hop, hrange]
        · simp [heffect, hrow, hop, hrange, hready]

end Sys2Proof.Proofs
end

section
/-! SUPPORT. Several blocks side by side (R12, R106): what a step of one leaves in each. -/

namespace Sys2Proof.Proofs

open Sys2Proof.Machine

/-- The vector goes on exactly where the block that moves does, and then that block alone is written (R106). -/
theorem stepAt_eq_next_iff {n : Nat} {k : Fin n} {blocks after : Vector State n} :
    stepAt k blocks = .next after ↔ ∃ t, step blocks[k] = .next t ∧ after = blocks.set k t := by
  unfold stepAt
  cases step blocks[k] <;> simp [eq_comm]

/-- Settles O57: the vector after the step is the one before it with the moving block written. -/
theorem instancesIndependent : Obligations.InstancesIndependent := by
  intro n k blocks after h
  obtain ⟨t, hstep, rfl⟩ := stepAt_eq_next_iff.1 h
  refine ⟨hstep.trans (by simp), fun j hj => ?_⟩
  exact Vector.getElem_set_ne k.isLt j.isLt (Fin.val_ne_of_ne hj.symm)

end Sys2Proof.Proofs
end

section
/-! SUPPORT. Reset and hazards (R112, R116): a running stream refuses every command and ends at an answer or a reset only, and the state
after reset. -/

namespace Sys2Proof.Proofs

open Sys2Proof.Machine Sys2Proof.Claims

/-! ## A running stream (R116) -/

theorem isRunning_iff {s : State} : s.isRunning = true ↔ ∃ phase, s.ctl = .running phase := by
  unfold State.isRunning
  cases s.ctl <;> simp

/-- The rows of R89 that leave RUNNING are those of the host's answers and of reset. -/
theorem isRunning_of_tableRow {s t : State} {e : Option Event} (h : TableRow s t e) (hrun : s.isRunning = true) :
    t.isRunning = true ∨ e = some .reset ∨ (∃ a, e = some (.readAnswer a)) ∨ ∃ a, e = some (.writeAnswer a) := by
  cases h with
  | openSucceeds w hop m hidle => simp [hidle] at hrun
  | openFails w hop m a hidle => simp [hidle] at hrun
  | run w hop m hready => simp [isRunning_iff, hready] at hrun
  | converted e he n o hwrite => exact .inl (isRunning_iff.2 ⟨_, hwrite⟩)
  | convertedEmpty e he n o hread => exact .inl (isRunning_iff.2 ⟨_, hread⟩)
  | reset => exact .inr (.inl rfl)
  | endOfInput | blockRead | readFails | shortReadFails => exact .inr (.inr (.inl ⟨_, rfl⟩))
  | blockWritten | writeFails => exact .inr (.inr (.inr ⟨_, rfl⟩))

theorem refused_of_isRunning {s : State} (h : s.isRunning = true) (w : Word) : refused s w = true := by
  simp [refused, h]

/-- Settles O21: every word is refused while RUNNING, and R89 leaves RUNNING by an answer or a reset only. -/
theorem runningRefusesCommands : Obligations.RunningRefusesCommands := by
  refine ⟨fun s w hv hrun => ⟨if_pos hrun, ?_⟩, fun s t hrun h hreset hread hwrite => ?_⟩
  · exact step_cmd_of_refused (s := s.commanded w) hv rfl (refused_of_isRunning hrun w)
  · rcases controllerFollowsTable s t h with hctl | hrow
    · exact isRunning_iff.2 (hctl ▸ isRunning_iff.1 hrun)
    · obtain hstays | he | ⟨a, he⟩ | ⟨a, he⟩ := isRunning_of_tableRow hrow hrun
      · exact hstays
      · exact absurd he hreset
      · exact absurd he (hread a)
      · exact absurd he (hwrite a)

/-! ## The state after reset (R112) -/

theorem step_reset {s : State} {rest : List Event} (hv : s.params.valid = true) (hi : s.inputs = .reset :: rest) :
    step s = .next ({ s with inputs := rest } : State).afterReset := by
  rw [step_of_cons hv hi]
  rfl

/-- Settles O53: IDX is INITIAL_INDEX, which R7 puts in the table; CTL = IDLE with no error and no block in BUF. -/
theorem resetSatisfiesInvariant : Obligations.ResetSatisfiesInvariant :=
  have hv : Params.voxDefault.valid = true := by decide
  { paramsValid := hv
    idxInTable := initCodec_idx_lt hv
    errIffFailed := by decide
    allocNeedsAllocMayFail := by decide
    fallbackWidth := by decide
    blockRead := by decide
    blockToWrite := by decide }

/-- Settles O54: the fixed values of the start, and `afterReset` for a machine that is reset. -/
theorem resetValues : Obligations.ResetValues :=
  ⟨⟨rfl, rfl, rfl, rfl, rfl, rfl, rfl, rfl, rfl, by decide, by decide⟩, fun _ _ hv hi => ⟨[], step_reset hv hi⟩⟩

end Sys2Proof.Proofs
end
